-- ==== Sys2Proof/Word.lean ====
section
/-!
DEFINITION. The one word type of the machine (spec 00_scope.md R3, XLEN = 8).
-/

namespace Sys2Proof

/-- An 8-bit unsigned value: a general register, `pc`, a memory cell, an opcode or an operand byte
(R3 `XLEN`). The machine has no signed interpretation and no wider datum (R32, R89). -/
abbrev Byte := BitVec 8

end Sys2Proof
end

