-- ==== Sys2Proof/Config.lean ====
section
/-!
DEFINITION. What an implementation fixes (spec 00_scope.md R3): the size of memory and the two values
of the one open parameter, RANGE_POLICY. The other named constants of R3 are in Machine/Params.lean.
The model has no free value: spec 92 leaves no point open without a decision.
-/

namespace Sys2Proof

/-- `RANGE_POLICY` (R3, R5; decision D1): what happens when a register operand byte is 8 or more, or
when `pc + k` or `SP + k` leaves 0..255. -/
inductive RangePolicy where
  /-- The instruction raises the fatal `RangeFault` and has no other effect. -/
  | fault
  /-- Addresses are taken modulo 256 and register indices modulo 8; no fault exists. -/
  | wrap
  deriving DecidableEq, Repr

/-- `MEM_SIZE` (R3, R19): the number of memory cells. -/
def Config.memSize : Nat := 256

end Sys2Proof
end

