-- ==== Sys2Proof/Machine/Params.lean ====
section
/-!
DEFINITION. The named constants of spec 00_scope.md R3 and the reset values of 10_state.md R22 that
the state and the operations use. (They stand here, apart from the types, because the source's
literals are unaudited: spec 91_not_in_source.md N2.)
-/

namespace Sys2Proof.Machine

/-- `SP_INDEX` (R3, R11): register 6 is the stack pointer. -/
def spIndex : Fin 8 := 6

/-- `FL_INDEX` (R3, R12): register 5 is the flags register. -/
def flIndex : Fin 8 := 5

/-- `FL_E` (R3, R24): FL with bit 0, Equal, alone. -/
def flagEqual : Byte := 0x01

/-- `FL_G` (R3, R24): FL with bit 1, Greater-than, alone. -/
def flagGreater : Byte := 0x02

/-- `FL_L` (R3, R24): FL with bit 2, Less-than, alone. -/
def flagLess : Byte := 0x04

/-- `PC_RESET` (R3, R14). -/
def pcReset : Byte := 0x00

/-- `SP_RESET` (R3, R22). -/
def spReset : Byte := 0xF4

/-- `REG_RESET[i]` (R3, R22): DESIGN CHOICE of the spec (decision D3), the source gives no value; log
entry 3. -/
def regReset : Byte := 0x00

/-- The register file after reset (R22): every register at `REG_RESET`, the stack pointer at
`SP_RESET`. -/
def regsReset : Vector Byte 8 := (Vector.replicate 8 regReset).set spIndex spReset

/-- The default of `RANGE_POLICY` (R3; decision D1); log entry 1. -/
def rangePolicyDefault : RangePolicy := .fault

/-- What a memory cell that nothing has written reads as (R19, R22, R34): 0x00. -/
def memReset : Byte := 0x00

end Sys2Proof.Machine
end

