-- ==== Sys2Proof/Machine/State.lean ====
section
/-!
DEFINITION. The state of the CORE as plain data (spec 10_state.md R10 to R27), the state after reset
(R22), and the reasons a step can stop.
-/

namespace Sys2Proof.Machine

/-- The two kinds of `RangeFault` (R17, R113). -/
inductive RangeKind where
  /-- An operand byte that names a register is 8 or more. -/
  | registerIndex
  /-- An address computed from `pc` or SP lies outside 0..255. -/
  | address
  deriving DecidableEq, Repr

/-- The cause of a fatal fault (R17, R113, R114). A fatal fault is a state of the machine (R112), not
a stop of the model: taking one is a next state. -/
inductive FaultCause where
  /-- `RangeFault(kind, value)` (R113): `value` is the operand byte, or the unbounded address. -/
  | rangeFault (kind : RangeKind) (value : Int)
  /-- `UnsupportedAluOp` (R114): named by the source; nothing raises it (R86). -/
  | unsupportedAluOp
  deriving DecidableEq, Repr

/-- What the CORE sends out during a step (R138), on two separate channels. -/
inductive Event where
  /-- `Out(v)`: PRN's value, to the output collaborator (R81). -/
  | out (v : Byte)
  /-- `UnknownOpcode(a, op)`: the report of an unknown opcode and its address (R73). -/
  | unknownOpcode (a op : Byte)
  deriving DecidableEq, Repr

/-- Memory (R19): the cells that do not hold 0x00, by rising address. `Memory.wf` (Machine/Ops.lean)
is the canonical form; an unlisted address reads as 0x00. -/
abbrev Memory := List Host.Cell

/-- The state (R25, with the event log of R27 and the parameter of R3). -/
structure State where
  /-- `x[0]`..`x[7]` (R10); `x[5]` is FL (R12) and `x[6]` is SP (R11): one storage element each. -/
  regs : Vector Byte 8
  /-- The program counter (R13). -/
  pc : Byte
  /-- The running flag (R16). -/
  running : Bool
  /-- The fault latch (R17); `Option.none` is the spec's value `none`. -/
  fault : Option FaultCause
  /-- The 256 memory cells (R19). -/
  mem : Memory
  /-- The event log, oldest first (R27, R138). -/
  events : List Event
  /-- `RANGE_POLICY` (R3, R5): the machine's one parameter. The model's own field, so that both
  values are modelled: no step changes it (log entry 1). -/
  rangePolicy : RangePolicy
  deriving DecidableEq, Repr

/-- The machine right after reset (R22): memory 0x00, SP 0xF4, the other registers 0x00, `pc` 0x00,
running, no fault, no event. -/
def State.reset : State where
  regs := regsReset
  pc := pcReset
  running := true
  fault := none
  mem := []
  events := []
  rangePolicy := rangePolicyDefault

/-- Why the MODEL stops where the machine's next state is not given: never. The spec gives every
instruction its effect in every state, and a fatal fault of the machine is itself a next state
(R112), so this type has no constructor: no step ends this way (safe). -/
inductive Fault
  deriving DecidableEq, Repr

/-- Why the model gives an instruction no meaning. -/
inductive Refusal where
  /-- An arm of `exec` that has no meaning yet, by the instruction's mnemonic. No arm raises it in
  this model: all eleven rows of the opcode table have their meaning (safe). -/
  | notModelled (mnemonic : String)
  deriving DecidableEq, Repr

end Sys2Proof.Machine
end

