-- ==== Sys2Proof/Machine/Ops.lean ====
section
/-!
DEFINITION. The named operations over memory, registers, `pc`, the stack pointer and the event log
(spec 00_scope.md R4, R5; 20_memory.md R30; 43_stack.md), and the one shared operation that takes a
fatal fault (60_exceptions.md R111, R112). There is no return from it (R119): only reset leaves it.
-/

namespace Sys2Proof.Machine

/-! ### Memory -/

/-- The value of the cell at key `a`; an unlisted key reads as the reset content (R34). -/
def Memory.cell : Memory → Nat → Byte
  | [], _ => memReset
  | (b, w) :: m, a => if b = a then w else Memory.cell m a

/-- The list without the cell at key `a`. -/
def Memory.erase (m : Memory) (a : Nat) : Memory := m.filter fun c => c.1 != a

/-- The list with the cell `(a, v)` put before the first greater key. -/
def Memory.insert : Memory → Nat → Byte → Memory
  | [], a, v => [(a, v)]
  | (b, w) :: m, a, v =>
    if a < b then (a, v) :: (b, w) :: m else (b, w) :: Memory.insert m a v

/-- The list with cell `a` holding `v`; a cell that holds the reset content is not listed. -/
def Memory.setCell (m : Memory) (a : Nat) (v : Byte) : Memory :=
  if v = memReset then m.erase a else (m.erase a).insert a v

/-- The canonical form: keys strictly rising, all of them addresses, and no entry equal to what an
unlisted address reads as. -/
abbrev Memory.wf (m : Memory) : Prop :=
  m.Pairwise (fun c d => c.1 < d.1) ∧ ∀ c ∈ m, c.1 < Config.memSize ∧ c.2 ≠ memReset

/-- `MemRead(addr, 1)` (R4, R30). -/
def State.memRead (s : State) (a : Byte) : Byte := s.mem.cell a.toNat

/-- `MemWrite(addr, 1, v)` (R4, R30). -/
def State.memWrite (s : State) (a v : Byte) : State := { s with mem := s.mem.setCell a.toNat v }

/-! ### Registers -/

/-- Reading `x[i]` (R4, R10). -/
def State.getReg (s : State) (i : Fin 8) : Byte := s.regs[i]

/-- `x[i] <- v` (R4, R10): no register is hardwired. -/
def State.setReg (s : State) (i : Fin 8) (v : Byte) : State := { s with regs := s.regs.set i v }

/-- SP, another spelling of `x[6]` (R4, R11). -/
def State.sp (s : State) : Byte := s.getReg spIndex

/-- `pc <- t` (R4). -/
def State.setPc (s : State) (t : Byte) : State := { s with pc := t }

/-! ### Events -/

/-- `emit E` (R4, R138): appends to the event log. -/
def State.emit (s : State) (e : Event) : State := { s with events := s.events ++ [e] }

/-! ### Range arithmetic -/

/-- `AddrAdd(a, k)` (R5, R44): the unbounded sum where it is an address; else a RangeFault under
`fault`, the sum modulo 256 under `wrap`. -/
def addrAdd (p : RangePolicy) (a : Byte) (k : Int) : Except FaultCause Byte :=
  let t : Int := (a.toNat : Int) + k
  if 0 ≤ t ∧ t ≤ 255 then .ok (BitVec.ofInt 8 t)
  else
    match p with
    | .fault => .error (.rangeFault .address t)
    | .wrap => .ok (BitVec.ofInt 8 t)

/-- The last statement of a handler that falls through: `pc <- AddrAdd(pc, k)` (R13, R75). -/
def State.advance (s : State) (k : Int) : Except FaultCause State := do
  let npc ← addrAdd s.rangePolicy s.pc k
  return s.setPc npc

/-! ### The stack pointer (R26: the stack is a convention over memory) -/

/-- `x[6] <- AddrAdd(x[6], k)` with `k` -1 (R95, R100) or +1 (R96, R101). -/
def State.moveSp (s : State) (k : Int) : Except FaultCause State := do
  let sp ← addrAdd s.rangePolicy s.sp k
  return s.setReg spIndex sp

/-- `MemWrite(x[6], 1, v)`: the store of a push, at the stack pointer as it is now (R95, R100). -/
def State.storeTop (s : State) (v : Byte) : State := s.memWrite s.sp v

/-- `MemRead(x[6], 1)`: the load of a pop, at the stack pointer as it is now (R96, R101). -/
def State.loadTop (s : State) : Byte := s.memRead s.sp

/-! ### Taking a fatal fault -/

/-- The fatal-fault action (R112): the latch takes the cause, `running` is cleared, everything else
is as it was before the instruction. -/
def State.raise (s : State) (c : FaultCause) : State :=
  { s with fault := some c, running := false }

/-- The end of an instruction's pseudocode (R6, R111): if no statement raised, the working copy is
the new state; if one did, the working copy and its events are discarded and the fatal-fault action
is taken on the state the instruction began with. -/
def settle (s : State) : Except FaultCause State → Host.Outcome State Fault Refusal
  | .ok t => .next t
  | .error c => .next (s.raise c)

end Sys2Proof.Machine
end

