-- ==== Sys2Proof/Machine/Flags.lean ====
section
/-!
DEFINITION. The flags register FL = `x[5]` (spec 10_state.md R12, R24) and the one flag computation of
the machine, CMP's (42_alu.md R90). ADD and MULT compute no flag (R87, R88, R89).
-/

namespace Sys2Proof.Machine

/-- FL, another spelling of `x[5]` (R4, R12). -/
def State.fl (s : State) : Byte := s.getReg flIndex

/-- Bit 0 of FL, Equal (R24). -/
def State.flagE (s : State) : Bool := s.fl.getLsbD 0

/-- Bit 1 of FL, Greater-than (R24). -/
def State.flagG (s : State) : Bool := s.fl.getLsbD 1

/-- Bit 2 of FL, Less-than (R24). -/
def State.flagL (s : State) : Bool := s.fl.getLsbD 2

/-- What CMP writes to the whole of FL (R90): the unsigned comparison; bits 7..3 are 0 (the spec's
decision D4; log entry 7). -/
def compareFlags (a b : Byte) : Byte :=
  if a.toNat < b.toNat then flagLess
  else if a.toNat > b.toNat then flagGreater
  else flagEqual

end Sys2Proof.Machine
end

