-- ==== Sys2Proof/Machine/Operands.lean ====
section
/-!
DEFINITION. The operand forms of spec 30_encoding.md (R54, R59): the addresses operand bytes are
fetched from, and the register an operand byte names. LDI's immediate is the operand byte itself.
-/

namespace Sys2Proof.Machine

/-- Checks (1) and (2) of R75: the addresses `pc+1`..`pc+n` of the operand bytes, lowest first, each
through AddrAdd. The bytes themselves are in the instruction already (Machine/Fetch.lean; log entry
6). -/
def State.operandAddrs (s : State) : Nat → Except FaultCause Unit
  | 0 => .ok ()
  | n + 1 => do
    s.operandAddrs n
    let _ ← addrAdd s.rangePolicy s.pc ((n : Int) + 1)
    return ()

/-- `RegIndex(b)` (R5, R54): the byte itself where it is at most 7; else a RangeFault under `fault`,
the byte modulo 8 under `wrap`. -/
def regIndex (p : RangePolicy) (b : Byte) : Except FaultCause (Fin 8) :=
  if b.toNat ≤ 7 then .ok (Fin.ofNat 8 b.toNat)
  else
    match p with
    | .fault => .error (.rangeFault .registerIndex b.toNat)
    | .wrap => .ok (Fin.ofNat 8 b.toNat)

/-- Checks (1) and (3) of R75 for format F1: the operand address, then the register it names. -/
def State.operandsF1 (s : State) (b1 : Byte) : Except FaultCause (Fin 8) := do
  s.operandAddrs 1
  regIndex s.rangePolicy b1

/-- Checks (1) to (3) of R75 for format F2R: both operand addresses, then register A, then B. -/
def State.operandsF2R (s : State) (b1 b2 : Byte) : Except FaultCause (Fin 8 × Fin 8) := do
  s.operandAddrs 2
  let ra ← regIndex s.rangePolicy b1
  let rb ← regIndex s.rangePolicy b2
  return (ra, rb)

/-- Checks (1) to (3) of R75 for format F2I: both operand addresses, then the register. -/
def State.operandsF2I (s : State) (b1 : Byte) : Except FaultCause (Fin 8) := do
  s.operandAddrs 2
  regIndex s.rangePolicy b1

end Sys2Proof.Machine
end

