-- ==== Sys2Proof/Machine/Alu.lean ====
section
/-!
DEFINITION. The ALU block and its three instructions (spec 42_alu.md R85 to R90).
-/

namespace Sys2Proof.Machine

/-- The operation select of the ALU (R86): a closed set, so that the source's
Unsupported-Operation fault cannot arise (R114). -/
inductive AluOp where
  | add
  | mult
  | cmp
  deriving DecidableEq, Repr

/-- The ALU's output (the table of R85): sum and product modulo 256 (R87, R88), or the new FL (R90). -/
def aluApply : AluOp → Byte → Byte → Byte
  | .add, a, b => a + b
  | .mult, a, b => a * b
  | .cmp, a, b => compareFlags a b

/-- Where the ALU's output goes (R85): register A, or FL for CMP. -/
def aluTarget : AluOp → Fin 8 → Fin 8
  | .add, ra => ra
  | .mult, ra => ra
  | .cmp, _ => flIndex

/-- The shared pseudocode of R87, R88 and R90: both registers are read before the output is written,
then `pc` advances by 3. -/
def State.aluInstr (s : State) (op : AluOp) (b1 b2 : Byte) : Except FaultCause State := do
  let (ra, rb) ← s.operandsF2R b1 b2
  (s.setReg (aluTarget op ra) (aluApply op (s.getReg ra) (s.getReg rb))).advance 3

/-- ADD (R87). -/
def execAdd (b1 b2 : Byte) (s : State) : Host.Outcome State Fault Refusal :=
  settle s (s.aluInstr .add b1 b2)

/-- MULT (R88). -/
def execMult (b1 b2 : Byte) (s : State) : Host.Outcome State Fault Refusal :=
  settle s (s.aluInstr .mult b1 b2)

/-- CMP (R90). -/
def execCmp (b1 b2 : Byte) (s : State) : Host.Outcome State Fault Refusal :=
  settle s (s.aluInstr .cmp b1 b2)

end Sys2Proof.Machine
end

