-- ==== Sys2Proof/Machine/Engine.lean ====
section
/-!
DEFINITION. HLT and the unknown opcode (spec 40_engine_cycle.md R72, R73).
-/

namespace Sys2Proof.Machine

/-- HLT (R72): clears `running` and moves `pc` past itself; the advance wraps and never raises
(decision D5; log entry 8). -/
def execHlt (s : State) : Host.Outcome State Fault Refusal :=
  .next { s with running := false, pc := s.pc + 1 }

/-- UNKNOWN(op) (R73): the next address first (it may raise), then the report, then the advance. -/
def execUnknown (op : Byte) (s : State) : Host.Outcome State Fault Refusal :=
  settle s do
    let npc ← addrAdd s.rangePolicy s.pc 1
    return (s.emit (.unknownOpcode s.pc op)).setPc npc

end Sys2Proof.Machine
end

