-- ==== Sys2Proof/Machine/LoadOutput.lean ====
section
/-!
DEFINITION. LDI and PRN (spec 41_load_and_output.md R80, R81).
-/

namespace Sys2Proof.Machine

/-- LDI (R80): the immediate, unchanged, into the named register; FL and SP are written as plain
registers when the operand names them. -/
def execLdi (b1 b2 : Byte) (s : State) : Host.Outcome State Fault Refusal :=
  settle s do
    let r ← s.operandsF2I b1
    (s.setReg r b2).advance 3

/-- PRN (R81): the next address first (it may raise), then the event `Out(x[r])`, then the advance. -/
def execPrn (b1 : Byte) (s : State) : Host.Outcome State Fault Refusal :=
  settle s do
    let r ← s.operandsF1 b1
    let npc ← addrAdd s.rangePolicy s.pc 2
    return (s.emit (.out (s.getReg r))).setPc npc

end Sys2Proof.Machine
end

