-- ==== Sys2Proof/Machine/Stack.lean ====
section
/-!
DEFINITION. PUSH and POP (spec 43_stack.md R95, R96). Each statement sees the effects of the ones
before it (R6, decision D6), which matters when the operand register is the stack pointer (log
entry 9).
-/

namespace Sys2Proof.Machine

/-- PUSH (R95): decrement SP, store the register (read now) at the new SP, advance. -/
def execPush (b1 : Byte) (s : State) : Host.Outcome State Fault Refusal :=
  settle s do
    let r ← s.operandsF1 b1
    let u ← s.moveSp (-1)
    (u.storeTop (u.getReg r)).advance 2

/-- POP (R96): load the register from the cell at SP, increment SP (as it is now), advance. -/
def execPop (b1 : Byte) (s : State) : Host.Outcome State Fault Refusal :=
  settle s do
    let r ← s.operandsF1 b1
    let u ← (s.setReg r s.loadTop).moveSp 1
    u.advance 2

end Sys2Proof.Machine
end

