-- ==== Sys2Proof/Machine/Subroutine.lean ====
section
/-!
DEFINITION. CALL and RET (spec 44_subroutine.md R100, R101).
-/

namespace Sys2Proof.Machine

/-- CALL (R100): the return address first (it may raise), then the push of it, then `pc` takes the
named register, read after the push (decision D6; log entry 9). -/
def execCall (b1 : Byte) (s : State) : Host.Outcome State Fault Refusal :=
  settle s do
    let r ← s.operandsF1 b1
    let ret ← addrAdd s.rangePolicy s.pc 2
    let u ← s.moveSp (-1)
    let w := u.storeTop ret
    return w.setPc (w.getReg r)

/-- RET (R101): `pc` takes the cell at SP, then SP is incremented. -/
def execRet (s : State) : Host.Outcome State Fault Refusal :=
  settle s ((s.setPc s.loadTop).moveSp 1)

end Sys2Proof.Machine
end

