-- ==== Sys2Proof/Syntax.lean ====
section
/-!
DEFINITION. The instructions as syntax: one constructor per row of spec/opcode_table.json.
A register operand is the WHOLE operand byte (R54): which register it names, if any, is decided when
the instruction runs (R5 RegIndex), so every operand byte is a form of the instruction.
-/

namespace Sys2Proof

/-- The instruction set: the ten rows of R56 and the default row of R70 (UNKNOWN, R58, R73). -/
inductive Instr where
  /-- HLT (R72): clears the running flag. -/
  | hlt
  /-- LDI (R80): register operand byte, then the immediate. -/
  | ldi (r value : Byte)
  /-- PRN (R81): register operand byte. -/
  | prn (r : Byte)
  /-- MULT (R88): register A (destination and first source), register B. -/
  | mult (ra rb : Byte)
  /-- ADD (R87): register A (destination and first source), register B. -/
  | add (ra rb : Byte)
  /-- PUSH (R95): source register. -/
  | push (r : Byte)
  /-- POP (R96): destination register. -/
  | pop (r : Byte)
  /-- CALL (R100): the register that holds the target address. -/
  | call (r : Byte)
  /-- RET (R101): no operand. -/
  | ret
  /-- CMP (R90): register A, register B; the destination is register 5. -/
  | cmp (ra rb : Byte)
  /-- UNKNOWN (R58, R73): any opcode byte outside the ten of R56; it carries that byte. -/
  | unknown (op : Byte)
  deriving DecidableEq, Repr

/-- The four formats of R50. -/
inductive Format where
  /-- One byte: the opcode (HLT, RET). -/
  | f0
  /-- Two bytes: opcode, register (PRN, PUSH, POP, CALL). -/
  | f1
  /-- Three bytes: opcode, register A, register B (ADD, MULT, CMP). -/
  | f2r
  /-- Three bytes: opcode, register, immediate (LDI). -/
  | f2i
  deriving DecidableEq, Repr

/-- Why a list of bytes holds no whole instruction. A fetch never meets either: it reads as many
bytes as the opcode calls for. -/
inductive DecodeError where
  /-- There is no byte at all. -/
  | noOpcode
  /-- The list ends before the operand bytes that this opcode calls for. -/
  | truncated (op : Byte)
  deriving DecidableEq, Repr

end Sys2Proof
end

