-- ==== Sys2Proof/Decode.lean ====
section
/-!
DEFINITION. The opcode map of spec 30_encoding.md (R50 to R61): the decoder, total on any bytes, and
after it the encoder, written from the same table.
-/

namespace Sys2Proof

/-- The format of each of the ten opcodes (the table of R56); `none` for the 246 others (R58). -/
def formatOf (op : Byte) : Option Format :=
  if op = 0x01#8 then some .f0
  else if op = 0x82#8 then some .f2i
  else if op = 0x47#8 then some .f1
  else if op = 0xA2#8 then some .f2r
  else if op = 0xA0#8 then some .f2r
  else if op = 0x45#8 then some .f1
  else if op = 0x46#8 then some .f1
  else if op = 0x50#8 then some .f1
  else if op = 0x11#8 then some .f0
  else if op = 0xA7#8 then some .f2r
  else none

/-- How many operand bytes a format has (R50). -/
def operandsOfFormat : Format → Nat
  | .f0 => 0
  | .f1 => 1
  | .f2r => 2
  | .f2i => 2

/-- How many operand bytes follow an opcode byte (R50, R60): told from the opcode byte alone; an
unknown opcode has none, whatever its high bits are (R57, R58). -/
def operandCount (op : Byte) : Nat :=
  match formatOf op with
  | some f => operandsOfFormat f
  | none => 0

/-- The length in bytes of the instruction that an opcode byte begins (R60). -/
def lengthOf (op : Byte) : Nat := operandCount op + 1

/-- The dispatch table (R55, R70, R71): a full 8-bit match on the opcode byte, with the two bytes
after it. A format that has fewer operand bytes does not look at them. -/
def dispatch (op b1 b2 : Byte) : Instr :=
  if op = 0x01#8 then .hlt
  else if op = 0x82#8 then .ldi b1 b2
  else if op = 0x47#8 then .prn b1
  else if op = 0xA2#8 then .mult b1 b2
  else if op = 0xA0#8 then .add b1 b2
  else if op = 0x45#8 then .push b1
  else if op = 0x46#8 then .pop b1
  else if op = 0x50#8 then .call b1
  else if op = 0x11#8 then .ret
  else if op = 0xA7#8 then .cmp b1 b2
  else .unknown op

/-- The decoder (R50, R55, R60): reads one instruction from the front of a list of bytes, the opcode
first, and answers it with the bytes that follow it. -/
def decode : List Byte → Except DecodeError (Instr × List Byte)
  | [] => .error .noOpcode
  | op :: rest =>
    match operandCount op, rest with
    | 0, tl => .ok (dispatch op 0 0, tl)
    | 1, b1 :: tl => .ok (dispatch op b1 0, tl)
    | 2, b1 :: b2 :: tl => .ok (dispatch op b1 b2, tl)
    | _, _ => .error (.truncated op)

/-- The bytes of an instruction numbered as spec/opcode_table.json numbers bits: the first byte is
bits 7..0, the next bits 15..8, then bits 23..16; every bit from `nbits` up is 0. -/
def tableBytes (nbits w : Nat) : List Byte :=
  let v := w % 2 ^ nbits
  [BitVec.ofNat 8 v, BitVec.ofNat 8 (v / 256), BitVec.ofNat 8 (v / 65536)]

/-- The instruction the decoder reads from an instruction whose bits are `w`, numbered as
spec/opcode_table.json numbers them. -/
def decodeTableWord (nbits w : Nat) : Option Instr :=
  match decode (tableBytes nbits w) with
  | .ok (i, _) => some i
  | .error _ => none

/-- The opcode byte of an instruction (R56; for UNKNOWN the byte it carries, R73). -/
def opcodeOf : Instr → Byte
  | .hlt => 0x01
  | .ldi _ _ => 0x82
  | .prn _ => 0x47
  | .mult _ _ => 0xA2
  | .add _ _ => 0xA0
  | .push _ => 0x45
  | .pop _ => 0x46
  | .call _ => 0x50
  | .ret => 0x11
  | .cmp _ _ => 0xA7
  | .unknown op => op

/-- The bytes of an instruction in memory order (R50, R32, R62): the opcode at the lowest address. -/
def encode : Instr → List Byte
  | .hlt => [0x01]
  | .ldi r value => [0x82, r, value]
  | .prn r => [0x47, r]
  | .mult ra rb => [0xA2, ra, rb]
  | .add ra rb => [0xA0, ra, rb]
  | .push r => [0x45, r]
  | .pop r => [0x46, r]
  | .call r => [0x50, r]
  | .ret => [0x11]
  | .cmp ra rb => [0xA7, ra, rb]
  | .unknown op => [op]

end Sys2Proof
end

