-- ==== Sys2Proof/Machine/Fetch.lean ====
section
/-!
DEFINITION. Instruction fetch (spec 20_memory.md R32, R41; 40_engine_cycle.md R70, R75): the opcode at
`pc`, operand byte 1 at `pc+1`, operand byte 2 at `pc+2`, through the same MemRead as data.
-/

namespace Sys2Proof.Machine

/-- The byte at `pc + k`, the address taken modulo 256 (under `fault` an operand address that would
leave 0..255 makes the meaning raise before it uses the byte; log entry 6). -/
def State.fetchByte (s : State) (k : Nat) : Byte := s.memRead (s.pc + BitVec.ofNat 8 k)

/-- The instruction at `pc`: the dispatch looks only at the bytes its format has (R75, D14), and a
read has no side effect (R34). -/
def State.fetch (s : State) : Instr := dispatch (s.fetchByte 0) (s.fetchByte 1) (s.fetchByte 2)

/-- The three bytes from `pc` on (modulo 256), in which the instruction at `pc` stands. -/
def State.codeBytes (s : State) : List Byte := [s.fetchByte 0, s.fetchByte 1, s.fetchByte 2]

/-- The state with bytes stored from address `a` upward, modulo 256. -/
def State.writeBytes (s : State) (a : Byte) : List Byte → State
  | [] => s
  | v :: vs => (s.memWrite a v).writeBytes (a + 1) vs

/-- The state with bytes stored from `pc` upward and the engine RUNNING (R18: running, no latched
fault), so that the next step fetches and runs them. -/
def State.placeCode (s : State) (code : List Byte) : State :=
  { s.writeBytes s.pc code with running := true, fault := none }

end Sys2Proof.Machine
end

