-- ==== Sys2Proof/Machine/Step.lean ====
section
/-!
DEFINITION. One step of the engine (spec 40_engine_cycle.md R70), and the placing of one instruction
where the next step fetches it.
-/

namespace Sys2Proof.Machine

/-- One step (R70): while `running`, fetch, dispatch, execute; when `running` is false the engine
takes no step and no state changes (log entry 4). -/
def step (s : State) : Host.Outcome State Fault Refusal :=
  if s.running then exec s.fetch s else .next s

/-- `s` with the instruction whose bits are `w` (numbered as spec/opcode_table.json numbers them, the
bits from `nbits` up being 0) stored at `pc` and the engine RUNNING (log entry 5). -/
def State.withFetchWord (s : State) (nbits w : Nat) : State :=
  s.placeCode (tableBytes nbits w)

end Sys2Proof.Machine
end

