-- ==== Sys2Proof/Machine/HostView.lean ====
section
/-!
DEFINITION. What the outside does to the CORE and sees of it (spec 70_reset_and_hazards.md R130 to
R144; 10_state.md R18; 60_exceptions.md R115): reset, the loader's contract, the status view and the
two event channels. No instruction uses these.
-/

namespace Sys2Proof.Machine

/-- Reset, in any status (R130): the state of R22. `RANGE_POLICY` is a parameter of the machine, not
state, and stays (log entry 1). -/
def State.hostReset (s : State) : State := { State.reset with rangePolicy := s.rangePolicy }

/-- Why the loader refuses an image. -/
inductive LoadError where
  /-- The image has more bytes than memory has cells (R133, decision D15). -/
  | imageTooLong
  deriving DecidableEq, Repr

/-- The cells of an image whose first byte goes to address `a`: a byte equal to the reset content is
not listed. -/
def Memory.ofBytes : Nat → List Byte → Memory
  | _, [] => []
  | a, v :: vs => if v = memReset then Memory.ofBytes (a + 1) vs else (a, v) :: Memory.ofBytes (a + 1) vs

/-- The loader's contract (R133): `mem[a]` is byte `a` of the image, 0x00 beyond it; nothing else is
written; an image of more than 256 bytes is refused. -/
def State.load (s : State) (image : List Byte) : Except LoadError State :=
  if image.length ≤ Config.memSize then .ok { s with mem := Memory.ofBytes 0 image }
  else .error .imageTooLong

/-- The engine status (R18), a function of `running` and `fault`. -/
inductive Status where
  | running
  | halted
  | faulted
  deriving DecidableEq, Repr

/-- The status of a state (R18). -/
def State.status (s : State) : Status :=
  match s.fault with
  | some _ => .faulted
  | none => if s.running then .running else .halted

/-- The fault cause code of the status view (R115, R141). -/
def State.causeCode (s : State) : Nat :=
  match s.fault with
  | none => 0
  | some (.rangeFault .registerIndex _) => 1
  | some (.rangeFault .address _) => 2
  | some .unsupportedAluOp => 3

/-- The values on the output channel (R138): the `Out` events, in order. -/
def State.outputs (s : State) : List Byte :=
  s.events.filterMap fun e =>
    match e with
    | .out v => some v
    | .unknownOpcode _ _ => none

/-- The reports on the diagnostic channel (R138): the `UnknownOpcode` events, in order. -/
def State.reports (s : State) : List (Byte × Byte) :=
  s.events.filterMap fun e =>
    match e with
    | .out _ => none
    | .unknownOpcode a op => some (a, op)

/-- The line the output collaborator renders for `Out(v)` (R139): the unsigned decimal numeral
without leading zeros, less the line end. -/
def renderOut (v : Byte) : String := Nat.repr v.toNat

end Sys2Proof.Machine
end

