-- ==== Sys2Proof/WellFormed.lean ====
section
/-!
DEFINITION. Which instruction terms stand for bytes that decode to them. Every operand byte is a form
of its instruction (R54, R59, R61); only UNKNOWN has a condition, that its byte is none of the ten
opcodes (R58).
-/

namespace Sys2Proof

/-- An instruction term is well formed (R58, R61). -/
def Instr.wellFormed : Instr → Bool
  | .hlt => true
  | .ldi _ _ => true
  | .prn _ => true
  | .mult _ _ => true
  | .add _ _ => true
  | .push _ => true
  | .pop _ => true
  | .call _ => true
  | .ret => true
  | .cmp _ _ => true
  | .unknown op => (formatOf op).isNone

end Sys2Proof
end

