-- ==== Sys2Proof/Safety.lean ====
section
/-!
DEFINITION. The terms in which claims about runs are stated: when a run is over and when it is a
success (spec R144), the tables of what each instruction may raise (R113), write (R23) and store
(R31), written from the tables and not from the meanings, and the invariant of every step.
-/

namespace Sys2Proof.Machine

/-- The run is over (R144). -/
def State.Over (s : State) : Prop := s.running = false

/-- The run has ended successfully (R144): never in status FAULTED (R112). -/
def State.Successful (s : State) : Prop := s.running = false ∧ s.fault = none

/-- What R112 says a fatal fault leaves: the latch set, `running` cleared, everything else as it was. -/
def State.latched (s : State) (c : FaultCause) : State :=
  { s with fault := some c, running := false }

/-- The first condition that holds, in the order of a row of R113's table. -/
def firstOf : List (Bool × FaultCause) → Option FaultCause
  | [] => none
  | (b, c) :: rest => if b then some c else firstOf rest

/-- `RangeFault(Address, 256)`: an operand address, a next `pc`, a return address or SP + 1. -/
def above : FaultCause := .rangeFault .address 256

/-- `RangeFault(Address, -1)`: SP - 1. -/
def below : FaultCause := .rangeFault .address (-1)

/-- `RangeFault(RegisterIndex, b)`. -/
def badReg (b : Byte) : FaultCause := .rangeFault .registerIndex b.toNat

/-- R113's table: the raising conditions of an instruction in the order in which they are checked,
each as the table words it, with the value it latches. -/
def rangeConditions (s : State) : Instr → List (Bool × FaultCause)
  | .hlt => []
  | .ldi r _ =>
    [(s.pc == 0xFF, above), (s.pc == 0xFE, above), (8 ≤ r.toNat, badReg r), (s.pc == 0xFD, above)]
  | .prn r => [(s.pc == 0xFF, above), (8 ≤ r.toNat, badReg r), (s.pc == 0xFE, above)]
  | .mult ra rb =>
    [(s.pc == 0xFF, above), (s.pc == 0xFE, above), (8 ≤ ra.toNat, badReg ra),
      (8 ≤ rb.toNat, badReg rb), (s.pc == 0xFD, above)]
  | .add ra rb =>
    [(s.pc == 0xFF, above), (s.pc == 0xFE, above), (8 ≤ ra.toNat, badReg ra),
      (8 ≤ rb.toNat, badReg rb), (s.pc == 0xFD, above)]
  | .push r =>
    [(s.pc == 0xFF, above), (8 ≤ r.toNat, badReg r), (s.getReg 6 == 0x00, below),
      (s.pc == 0xFE, above)]
  | .pop r =>
    [(s.pc == 0xFF, above), (8 ≤ r.toNat, badReg r),
      (if r == 6 then s.memRead (s.getReg 6) == 0xFF else s.getReg 6 == 0xFF, above),
      (s.pc == 0xFE, above)]
  | .call r =>
    [(s.pc == 0xFF, above), (8 ≤ r.toNat, badReg r), (s.pc == 0xFE, above),
      (s.getReg 6 == 0x00, below)]
  | .ret => [(s.getReg 6 == 0xFF, above)]
  | .cmp ra rb =>
    [(s.pc == 0xFF, above), (s.pc == 0xFE, above), (8 ≤ ra.toNat, badReg ra),
      (8 ≤ rb.toNat, badReg rb), (s.pc == 0xFD, above)]
  | .unknown _ => [(s.pc == 0xFF, above)]

/-- What an instruction raises in a state (R113): under `fault` the first condition of its row, under
`wrap` nothing (R5). -/
def raises (s : State) (i : Instr) : Option FaultCause :=
  match s.rangePolicy with
  | .fault => firstOf (rangeConditions s i)
  | .wrap => none

/-- The register that an operand byte names once no RangeFault is raised (R5): the byte itself for 0
to 7, the byte modulo 8 under `wrap`. -/
def namedReg (b : Byte) : Fin 8 := Fin.ofNat 8 b.toNat

/-- R23's table, column "writes": the registers an instruction may write. -/
def writtenRegs : Instr → List (Fin 8)
  | .hlt => []
  | .ldi r _ => [namedReg r]
  | .prn _ => []
  | .mult ra _ => [namedReg ra]
  | .add ra _ => [namedReg ra]
  | .push _ => [6]
  | .pop r => [namedReg r, 6]
  | .call _ => [6]
  | .ret => [6]
  | .cmp _ _ => [5]
  | .unknown _ => []

/-- R31's table, column "writes": the addresses an instruction stores to, from the SP it begins
with. -/
def storedAddrs (s : State) : Instr → List Byte
  | .hlt => []
  | .ldi _ _ => []
  | .prn _ => []
  | .mult _ _ => []
  | .add _ _ => []
  | .push _ => [s.getReg 6 - 1]
  | .pop _ => []
  | .call _ => [s.getReg 6 - 1]
  | .ret => []
  | .cmp _ _ => []
  | .unknown _ => []

/-- A cause that R113 lets the latch hold: a register byte of 8 or more, or an address of -1 or 256;
`UnsupportedAluOp` never (R114). -/
def FaultCause.legal : FaultCause → Prop
  | .rangeFault .registerIndex v => 8 ≤ v ∧ v ≤ 255
  | .rangeFault .address v => v = -1 ∨ v = 256
  | .unsupportedAluOp => False

/-- An event that a step may emit (R138): a report names an opcode byte outside the ten (R58). -/
def Event.legal : Event → Prop
  | .out _ => True
  | .unknownOpcode _ op => formatOf op = none

/-- The invariant of every step: memory in its canonical form; `running` with a latched fault never
occurs (R18); the latch holds a cause that R113 allows, and none under `wrap` (R5); every event in
the log is one that a step emits (R138). -/
structure State.Inv (s : State) : Prop where
  memory : s.mem.wf
  status : s.running = true → s.fault = none
  latch : ∀ c, s.fault = some c → c.legal ∧ s.rangePolicy = .fault
  log : ∀ e ∈ s.events, e.legal

end Sys2Proof.Machine
end

