-- ==== Sys2Proof/Certificates/Slice0/Obligations.lean ====
section
/-!
DEFINITION. The statements for the provers. Each docstring names the rules of spec/ it formalises, and
any decision of the spec (D<n>) or log entry of the model that a clause rests on.
-/

open Sys2Proof Sys2Proof.Machine

/-! ### Encoding and fetch -/

/-- Every well-formed instruction, with every operand at every byte value, is what its encoding
decodes to, whatever bytes follow it (R50, R54, R56, R58, R59). -/
def Obligations.DecodeOfEncode : Prop :=
  ∀ (i : Instr) (rest : List Byte), i.wellFormed = true → decode (encode i ++ rest) = .ok (i, rest)

/-- What the decoder reads is well formed and encodes back to the bytes it was read from: every word
has one meaning (R55, R60). -/
def Obligations.EncodeOfDecode : Prop :=
  ∀ (bytes rest : List Byte) (i : Instr), decode bytes = .ok (i, rest) →
    i.wellFormed = true ∧ encode i ++ rest = bytes

/-- The opcode table of R56 with the lengths of R60 and the default row of R58, on any three bytes:
the opcode is compared in all eight bits. -/
def Obligations.OpcodeTable : Prop :=
  ∀ (op b c : Byte) (rest : List Byte),
    decode (op :: b :: c :: rest) =
      .ok (if op = 0b00000001 then (.hlt, b :: c :: rest)
        else if op = 0b10000010 then (.ldi b c, rest)
        else if op = 0b01000111 then (.prn b, c :: rest)
        else if op = 0b10100010 then (.mult b c, rest)
        else if op = 0b10100000 then (.add b c, rest)
        else if op = 0b01000101 then (.push b, c :: rest)
        else if op = 0b01000110 then (.pop b, c :: rest)
        else if op = 0b01010000 then (.call b, c :: rest)
        else if op = 0b00010001 then (.ret, b :: c :: rest)
        else if op = 0b10100111 then (.cmp b c, rest)
        else (.unknown op, b :: c :: rest))

/-- Words written out from the spec: the program of R56 and R62, one word of each other instruction,
and an unknown opcode. A sanity statement. -/
def Obligations.SpecWordsDecode : Prop :=
  decode [0b10000010, 0b00000000, 0b00001000] = .ok (.ldi 0 8, []) ∧
  decode [0b01000111, 0b00000000] = .ok (.prn 0, []) ∧
  decode [0b00000001] = .ok (.hlt, []) ∧
  decode [0xA2, 0x00, 0x01] = .ok (.mult 0 1, []) ∧
  decode [0xA0, 0x00, 0x01] = .ok (.add 0 1, []) ∧
  decode [0xA7, 0x00, 0x01] = .ok (.cmp 0 1, []) ∧
  decode [0x45, 0x00] = .ok (.push 0, []) ∧
  decode [0x46, 0x01] = .ok (.pop 1, []) ∧
  decode [0x50, 0x01] = .ok (.call 1, []) ∧
  decode [0x11] = .ok (.ret, []) ∧
  decode [0x80, 0x01, 0x08] = .ok (.unknown 0x80, [0x01, 0x08])

/-- R60: the length is told from the opcode byte alone (1 for F0, 2 for F1, 3 for F2R and F2I, 1 for
an unknown opcode), in a list of bytes and in memory, whatever else the state holds. -/
def Obligations.LengthFromOpcodeAlone : Prop :=
  let length : Byte → Nat := fun op =>
    if op ∈ [(0x01 : Byte), 0x11] then 1
    else if op ∈ [(0x47 : Byte), 0x45, 0x46, 0x50] then 2
    else if op ∈ [(0x82 : Byte), 0xA2, 0xA0, 0xA7] then 3
    else 1
  (∀ (op : Byte) (tail rest : List Byte) (i : Instr), decode (op :: tail) = .ok (i, rest) →
    (op :: tail).length = length op + rest.length) ∧
  ∀ s : State, (encode s.fetch).length = length (s.memRead s.pc)

/-- R57: for the ten opcodes bits 7..6 equal the number of operand bytes; an unknown opcode has
none, whatever its high bits are. -/
def Obligations.HighBitsOfOpcode : Prop :=
  ∀ op : Byte,
    (formatOf op ≠ none → operandCount op = (op >>> 6).toNat) ∧
    (formatOf op = none → lengthOf op = 1)

/-- R70: when `running` is false no state changes; when it is true the step reads the byte at `pc`
and runs the handler of that opcode, with operand bytes at `pc+1` and `pc+2`. That the idle step
answers the same state is log entry 4 (DEDUCED from R70); that the operand bytes are read with the
opcode, at addresses modulo 256 also under `fault`, where the handler then raises before it uses
them, is log entry 6 (DEDUCED from R71, R75). -/
def Obligations.EngineStep : Prop :=
  ∀ s : State,
    (s.running = false → step s = .next s) ∧
    (s.running = true →
      let op := s.memRead s.pc
      let b := s.memRead (s.pc + 1)
      let c := s.memRead (s.pc + 2)
      step s =
        if op = 0x01 then exec .hlt s
        else if op = 0x82 then exec (.ldi b c) s
        else if op = 0x47 then exec (.prn b) s
        else if op = 0xA2 then exec (.mult b c) s
        else if op = 0xA0 then exec (.add b c) s
        else if op = 0x45 then exec (.push b) s
        else if op = 0x46 then exec (.pop b) s
        else if op = 0x50 then exec (.call b) s
        else if op = 0x11 then exec .ret s
        else if op = 0xA7 then exec (.cmp b c) s
        else exec (.unknown op) s)

/-- A step runs the decoded instruction: when the bytes at `pc` decode to `i`, the step of a running
engine is `exec` of `i` at that state, with nothing around it (R70, R75). The bytes are those at
`pc`, `pc+1` and `pc+2` modulo 256 (log entry 6, DEDUCED). -/
def Obligations.StepRunsDecoded : Prop :=
  ∀ (s : State) (i : Instr) (rest : List Byte), s.running = true →
    decode [s.memRead s.pc, s.memRead (s.pc + 1), s.memRead (s.pc + 2)] = .ok (i, rest) →
    step s = exec i s

/-- A word of the opcode table placed where the step fetches is what the step runs: for every state,
also one that is not running (the placing sets the engine RUNNING; log entry 5). The bytes are
stored and fetched modulo 256 (log entries 5 and 6). -/
def Obligations.PlacedWordRuns : Prop :=
  ∀ (s : State) (nbits w : Nat) (i : Instr), decodeTableWord nbits w = some i →
    step (s.withFetchWord nbits w) = exec i (s.withFetchWord nbits w)

/-- R75: a fetch looks only at the bytes of the instruction's own format (decision D14): two states
with the same `pc` that agree on them fetch the same instruction. The addresses are taken modulo 256
(log entry 6, DEDUCED). -/
def Obligations.FetchReadsOwnBytesOnly : Prop :=
  ∀ s t : State, s.pc = t.pc →
    (∀ k < lengthOf (s.memRead s.pc),
      s.memRead (s.pc + BitVec.ofNat 8 k) = t.memRead (s.pc + BitVec.ofNat 8 k)) →
    s.fetch = t.fetch

/-- R41: a byte that PUSH or CALL stores is the byte a later fetch of that address reads, opcode or
operand: for every state with the memory that the instruction left. Which byte PUSH of register 6
stores is decision D6 (log entry 9); the range conditions are decision D1 (log entry 1); a fetch
address is taken modulo 256 (log entry 6). -/
def Obligations.StoredByteIsFetched : Prop :=
  ∀ (s t u : State) (r : Byte) (k : Nat),
    u.mem = t.mem → u.pc + BitVec.ofNat 8 k = s.getReg 6 - 1 →
    (raises s (.push r) = none → exec (.push r) s = .next t →
      u.fetchByte k = if namedReg r = 6 then s.getReg 6 - 1 else s.getReg (namedReg r)) ∧
    (raises s (.call r) = none → exec (.call r) s = .next t → u.fetchByte k = s.pc + 2)

/-! ### Reset and load -/

/-- R22 and R130: what reset leaves, applied in any state, and the model's reset state: the
parameter RANGE_POLICY alone keeps its value. The zero of registers 0 to 5 and 7 is the spec's
decision D3 (log entry 3), the default policy is D1 (log entry 1). That pc is 0x00 is the spec's own
inference (R14; log entry 13, DEDUCED); that reset also clears memory is decision D10 (R130; log
entry 14). -/
def Obligations.ResetState : Prop :=
  State.reset.rangePolicy = .fault ∧
  State.reset.hostReset = State.reset ∧
  ∀ s : State,
    s.hostReset.getReg 6 = 0xF4 ∧
    (∀ j : Fin 8, j ≠ 6 → s.hostReset.getReg j = 0x00) ∧
    s.hostReset.pc = 0x00 ∧
    s.hostReset.running = true ∧
    s.hostReset.fault = none ∧
    (∀ a : Byte, s.hostReset.memRead a = 0x00) ∧
    s.hostReset.events = [] ∧
    s.hostReset.rangePolicy = s.rangePolicy

/-- The invariant of every step holds at reset (R22). -/
def Obligations.ResetMeetsInv : Prop := State.reset.Inv

/-- R133: the loader puts byte `a` of the image at address `a` and 0x00 beyond the image, writes
nothing else, and refuses an image of more than 256 bytes (decision D15). The refusal is log entry
15. -/
def Obligations.LoadPlacesImage : Prop :=
  ∀ (s : State) (image : List Byte),
    (image.length ≤ 256 → ∃ t, s.load image = .ok t ∧
      (∀ a : Byte, t.memRead a = (image[a.toNat]?).getD 0x00) ∧
      t = { s with mem := t.mem }) ∧
    (256 < image.length → s.load image = .error .imageTooLong)

/-! ### What each instruction does -/

/-- R72: HLT clears `running` and moves `pc` by one, modulo 256, under either policy (at 0xFF by
decision D5, log entry 8); nothing else changes. -/
def Obligations.HltEffect : Prop :=
  ∀ s : State, encode .hlt = [0b00000001] ∧
    exec .hlt s = .next { s with running := false, pc := s.pc + 1 }

/-- R73: an unknown opcode is reported with its address and byte and skipped as one byte; nothing
else changes (the report's form is decision D8, log entry 10). At `pc = 0xFF` under `fault` it
raises (decision D1, log entry 1): the latch is set and nothing else changes (R112, decision D2, log
entry 2). -/
def Obligations.UnknownEffect : Prop :=
  ∀ (s : State) (op : Byte),
    (s.rangePolicy = .wrap ∨ s.pc ≠ 0xFF →
      exec (.unknown op) s =
        .next { s with events := s.events ++ [.unknownOpcode s.pc op], pc := s.pc + 1 }) ∧
    (s.rangePolicy = .fault → s.pc = 0xFF →
      exec (.unknown op) s = .next (s.latched (.rangeFault .address 256)))

/-- R80: LDI writes the immediate, unchanged, into the named register and moves `pc` by 3; nothing
else changes, FL and SP included unless they are the named register; its exceptions under `fault`.
The fault clauses (a RangeFault is raised, the latch is set and nothing else changes, the first
condition wins) are the spec's decisions D1, D2 and D7 (R112, R113, R117; log entries 1, 2 and 11).
-/
def Obligations.LdiEffect : Prop :=
  ∀ (s : State) (r value : Byte),
    encode (.ldi r value) = [0b10000010, r, value] ∧
    (s.rangePolicy = .wrap ∨ s.pc.toNat ≤ 0xFC ∧ r.toNat ≤ 7 →
      exec (.ldi r value) s =
        .next { s with regs := s.regs.set (namedReg r) value, pc := s.pc + 3 }) ∧
    (s.rangePolicy = .fault →
      (0xFE ≤ s.pc.toNat →
        exec (.ldi r value) s = .next (s.latched (.rangeFault .address 256))) ∧
      (s.pc.toNat ≤ 0xFD → 8 ≤ r.toNat →
        exec (.ldi r value) s = .next (s.latched (.rangeFault .registerIndex r.toNat))) ∧
      (s.pc.toNat = 0xFD → r.toNat ≤ 7 →
        exec (.ldi r value) s = .next (s.latched (.rangeFault .address 256))))

/-- R81: PRN emits the event `Out` with the value of the named register, exactly one, and moves `pc`
by 2; nothing else changes; when it faults it emits nothing. The log that the event is appended to
is decision D8 (R27, R138; log entry 10). The fault clauses (a RangeFault is raised, the latch is
set and nothing else changes, the first condition wins) are the spec's decisions D1, D2 and D7
(R112, R113, R117; log entries 1, 2 and 11). -/
def Obligations.PrnEffect : Prop :=
  ∀ (s : State) (r : Byte),
    encode (.prn r) = [0b01000111, r] ∧
    (s.rangePolicy = .wrap ∨ s.pc.toNat ≤ 0xFD ∧ r.toNat ≤ 7 →
      exec (.prn r) s =
        .next { s with events := s.events ++ [.out (s.getReg (namedReg r))], pc := s.pc + 2 }) ∧
    (s.rangePolicy = .fault →
      (s.pc.toNat = 0xFF → exec (.prn r) s = .next (s.latched (.rangeFault .address 256))) ∧
      (s.pc.toNat ≤ 0xFE → 8 ≤ r.toNat →
        exec (.prn r) s = .next (s.latched (.rangeFault .registerIndex r.toNat))) ∧
      (s.pc.toNat = 0xFE → r.toNat ≤ 7 →
        exec (.prn r) s = .next (s.latched (.rangeFault .address 256))))

/-- R87: ADD writes the sum modulo 256 into register A and moves `pc` by 3; nothing else changes, no
flag among it; its exceptions under `fault`. The fault clauses (a RangeFault is raised, the latch is
set and nothing else changes, the first condition wins) are the spec's decisions D1, D2 and D7
(R112, R113, R117; log entries 1, 2 and 11). -/
def Obligations.AddEffect : Prop :=
  ∀ (s : State) (ra rb : Byte),
    encode (.add ra rb) = [0b10100000, ra, rb] ∧
    (s.rangePolicy = .wrap ∨ s.pc.toNat ≤ 0xFC ∧ ra.toNat ≤ 7 ∧ rb.toNat ≤ 7 →
      exec (.add ra rb) s =
        .next { s with
          regs := s.regs.set (namedReg ra) (BitVec.ofNat 8
            (((s.getReg (namedReg ra)).toNat + (s.getReg (namedReg rb)).toNat) % 256))
          pc := s.pc + 3 }) ∧
    (s.rangePolicy = .fault →
      (0xFE ≤ s.pc.toNat → exec (.add ra rb) s = .next (s.latched (.rangeFault .address 256))) ∧
      (s.pc.toNat ≤ 0xFD → 8 ≤ ra.toNat →
        exec (.add ra rb) s = .next (s.latched (.rangeFault .registerIndex ra.toNat))) ∧
      (s.pc.toNat ≤ 0xFD → ra.toNat ≤ 7 → 8 ≤ rb.toNat →
        exec (.add ra rb) s = .next (s.latched (.rangeFault .registerIndex rb.toNat))) ∧
      (s.pc.toNat = 0xFD → ra.toNat ≤ 7 → rb.toNat ≤ 7 →
        exec (.add ra rb) s = .next (s.latched (.rangeFault .address 256))))

/-- R88: MULT writes the product modulo 256 into register A and moves `pc` by 3; nothing else
changes, no flag among it; its exceptions under `fault`. The fault clauses (a RangeFault is raised,
the latch is set and nothing else changes, the first condition wins) are the spec's decisions D1, D2
and D7 (R112, R113, R117; log entries 1, 2 and 11). -/
def Obligations.MultEffect : Prop :=
  ∀ (s : State) (ra rb : Byte),
    encode (.mult ra rb) = [0b10100010, ra, rb] ∧
    (s.rangePolicy = .wrap ∨ s.pc.toNat ≤ 0xFC ∧ ra.toNat ≤ 7 ∧ rb.toNat ≤ 7 →
      exec (.mult ra rb) s =
        .next { s with
          regs := s.regs.set (namedReg ra) (BitVec.ofNat 8
            (((s.getReg (namedReg ra)).toNat * (s.getReg (namedReg rb)).toNat) % 256))
          pc := s.pc + 3 }) ∧
    (s.rangePolicy = .fault →
      (0xFE ≤ s.pc.toNat → exec (.mult ra rb) s = .next (s.latched (.rangeFault .address 256))) ∧
      (s.pc.toNat ≤ 0xFD → 8 ≤ ra.toNat →
        exec (.mult ra rb) s = .next (s.latched (.rangeFault .registerIndex ra.toNat))) ∧
      (s.pc.toNat ≤ 0xFD → ra.toNat ≤ 7 → 8 ≤ rb.toNat →
        exec (.mult ra rb) s = .next (s.latched (.rangeFault .registerIndex rb.toNat))) ∧
      (s.pc.toNat = 0xFD → ra.toNat ≤ 7 → rb.toNat ≤ 7 →
        exec (.mult ra rb) s = .next (s.latched (.rangeFault .address 256))))

/-- R90: CMP writes the whole of FL with the unsigned comparison of the two OLD register values
(bits 7..3 are written 0 by decision D4, log entry 7) and moves `pc` by 3; nothing else changes; its
exceptions under `fault`. The fault clauses (a RangeFault is raised, the latch is set and nothing
else changes, the first condition wins) are the spec's decisions D1, D2 and D7 (R112, R113, R117;
log entries 1, 2 and 11). -/
def Obligations.CmpEffect : Prop :=
  ∀ (s : State) (ra rb : Byte),
    encode (.cmp ra rb) = [0b10100111, ra, rb] ∧
    (s.rangePolicy = .wrap ∨ s.pc.toNat ≤ 0xFC ∧ ra.toNat ≤ 7 ∧ rb.toNat ≤ 7 →
      let a := (s.getReg (namedReg ra)).toNat
      let b := (s.getReg (namedReg rb)).toNat
      exec (.cmp ra rb) s =
        .next { s with
          regs := s.regs.set 5 (if a < b then 0x04 else if a > b then 0x02 else 0x01)
          pc := s.pc + 3 }) ∧
    (s.rangePolicy = .fault →
      (0xFE ≤ s.pc.toNat → exec (.cmp ra rb) s = .next (s.latched (.rangeFault .address 256))) ∧
      (s.pc.toNat ≤ 0xFD → 8 ≤ ra.toNat →
        exec (.cmp ra rb) s = .next (s.latched (.rangeFault .registerIndex ra.toNat))) ∧
      (s.pc.toNat ≤ 0xFD → ra.toNat ≤ 7 → 8 ≤ rb.toNat →
        exec (.cmp ra rb) s = .next (s.latched (.rangeFault .registerIndex rb.toNat))) ∧
      (s.pc.toNat = 0xFD → ra.toNat ≤ 7 → rb.toNat ≤ 7 →
        exec (.cmp ra rb) s = .next (s.latched (.rangeFault .address 256))))

/-- R90 (and the property S4): after CMP exactly one of Equal, Greater and Less is set, and which
one is the unsigned comparison; bits 7..3 read 0 (decision D4, log entry 7). The range conditions
are decision D1 (log entry 1). -/
def Obligations.CmpSetsExactlyOneFlag : Prop :=
  ∀ (s : State) (ra rb : Byte), raises s (.cmp ra rb) = none →
    ∃ t, exec (.cmp ra rb) s = .next t ∧
      (t.flagE = true ↔ s.getReg (namedReg ra) = s.getReg (namedReg rb)) ∧
      (t.flagG = true ↔ (s.getReg (namedReg rb)).toNat < (s.getReg (namedReg ra)).toNat) ∧
      (t.flagL = true ↔ (s.getReg (namedReg ra)).toNat < (s.getReg (namedReg rb)).toNat) ∧
      ((t.flagE = true ∧ t.flagG = false ∧ t.flagL = false) ∨
        (t.flagE = false ∧ t.flagG = true ∧ t.flagL = false) ∨
        (t.flagE = false ∧ t.flagG = false ∧ t.flagL = true)) ∧
      t.getReg 5 &&& 0xF8 = 0

/-- R95: PUSH decrements SP, then stores the named register at the new SP, and moves `pc` by 2;
nothing else changes. For register 6 the decremented value is stored (decision D6, log entry 9). The
last clause is its exceptions under `fault`, in the order of checking. The fault clauses (a
RangeFault is raised, the latch is set and nothing else changes, the first condition wins) are the
spec's decisions D1, D2 and D7 (R112, R113, R117; log entries 1, 2 and 11). -/
def Obligations.PushEffect : Prop :=
  ∀ (s : State) (r : Byte),
    encode (.push r) = [0b01000101, r] ∧
    (s.rangePolicy = .wrap ∨ s.pc.toNat ≤ 0xFD ∧ r.toNat ≤ 7 ∧ s.getReg 6 ≠ 0x00 →
      let a := s.getReg 6 - 1
      exec (.push r) s =
        .next { s with
          regs := s.regs.set 6 a
          mem := s.mem.setCell a.toNat (if namedReg r = 6 then a else s.getReg (namedReg r))
          pc := s.pc + 2 }) ∧
    (s.rangePolicy = .fault →
      (s.pc.toNat = 0xFF → exec (.push r) s = .next (s.latched (.rangeFault .address 256))) ∧
      (s.pc.toNat ≤ 0xFE → 8 ≤ r.toNat →
        exec (.push r) s = .next (s.latched (.rangeFault .registerIndex r.toNat))) ∧
      (s.pc.toNat ≤ 0xFE → r.toNat ≤ 7 → s.getReg 6 = 0x00 →
        exec (.push r) s = .next (s.latched (.rangeFault .address (-1)))) ∧
      (s.pc.toNat = 0xFE → r.toNat ≤ 7 → s.getReg 6 ≠ 0x00 →
        exec (.push r) s = .next (s.latched (.rangeFault .address 256))))

/-- R96: POP loads the named register from the cell at SP, then increments SP, and moves `pc` by 2;
nothing else changes. For register 6 the loaded value is incremented (decision D6, log entry 9). The
last clause is its exceptions under `fault`, in the order of checking. The fault clauses (a
RangeFault is raised, the latch is set and nothing else changes, the first condition wins) are the
spec's decisions D1, D2 and D7 (R112, R113, R117; log entries 1, 2 and 11). -/
def Obligations.PopEffect : Prop :=
  ∀ (s : State) (r : Byte),
    let v := s.memRead (s.getReg 6)
    let sp := if namedReg r = 6 then v else s.getReg 6
    encode (.pop r) = [0b01000110, r] ∧
    (s.rangePolicy = .wrap ∨ s.pc.toNat ≤ 0xFD ∧ r.toNat ≤ 7 ∧ sp ≠ 0xFF →
      exec (.pop r) s =
        .next { s with regs := (s.regs.set (namedReg r) v).set 6 (sp + 1), pc := s.pc + 2 }) ∧
    (s.rangePolicy = .fault →
      (s.pc.toNat = 0xFF → exec (.pop r) s = .next (s.latched (.rangeFault .address 256))) ∧
      (s.pc.toNat ≤ 0xFE → 8 ≤ r.toNat →
        exec (.pop r) s = .next (s.latched (.rangeFault .registerIndex r.toNat))) ∧
      (s.pc.toNat ≤ 0xFE → r.toNat ≤ 7 → sp = 0xFF →
        exec (.pop r) s = .next (s.latched (.rangeFault .address 256))) ∧
      (s.pc.toNat = 0xFE → r.toNat ≤ 7 → sp ≠ 0xFF →
        exec (.pop r) s = .next (s.latched (.rangeFault .address 256))))

/-- R100: CALL pushes `pc + 2` (decrement SP, store at the new SP) and goes to the address in the
named register; nothing else changes. For register 6 the target is the decremented SP (decision D6,
log entry 9). The last clause is its exceptions under `fault`, in the order of checking, the return
address before SP. The fault clauses (a RangeFault is raised, the latch is set and nothing else
changes, the first condition wins) are the spec's decisions D1, D2 and D7 (R112, R113, R117; log
entries 1, 2 and 11). -/
def Obligations.CallEffect : Prop :=
  ∀ (s : State) (r : Byte),
    encode (.call r) = [0b01010000, r] ∧
    (s.rangePolicy = .wrap ∨ s.pc.toNat ≤ 0xFD ∧ r.toNat ≤ 7 ∧ s.getReg 6 ≠ 0x00 →
      let a := s.getReg 6 - 1
      exec (.call r) s =
        .next { s with
          regs := s.regs.set 6 a
          mem := s.mem.setCell a.toNat (s.pc + 2)
          pc := if namedReg r = 6 then a else s.getReg (namedReg r) }) ∧
    (s.rangePolicy = .fault →
      (s.pc.toNat = 0xFF → exec (.call r) s = .next (s.latched (.rangeFault .address 256))) ∧
      (s.pc.toNat ≤ 0xFE → 8 ≤ r.toNat →
        exec (.call r) s = .next (s.latched (.rangeFault .registerIndex r.toNat))) ∧
      (s.pc.toNat = 0xFE → r.toNat ≤ 7 →
        exec (.call r) s = .next (s.latched (.rangeFault .address 256))) ∧
      (s.pc.toNat ≤ 0xFD → r.toNat ≤ 7 → s.getReg 6 = 0x00 →
        exec (.call r) s = .next (s.latched (.rangeFault .address (-1)))))

/-- R101: RET loads `pc` from the cell at SP, then increments SP; nothing else changes; it raises
under `fault` exactly when SP is 0xFF, and no value of `pc` makes it raise. That SP at 0xFF raises
under `fault` and wraps under `wrap` is decision D1 (R113, log entry 1); that the latch is set and
nothing else changes is decision D2 (R112, log entry 2). -/
def Obligations.RetEffect : Prop :=
  ∀ s : State,
    encode .ret = [0b00010001] ∧
    (s.rangePolicy = .wrap ∨ s.getReg 6 ≠ 0xFF →
      exec .ret s =
        .next { s with regs := s.regs.set 6 (s.getReg 6 + 1), pc := s.memRead (s.getReg 6) }) ∧
    (s.rangePolicy = .fault → s.getReg 6 = 0xFF →
      exec .ret s = .next (s.latched (.rangeFault .address 256)))

/-- R85: the ALU's table (output of each operation on all pairs of values), and where an instruction
that raises nothing writes that output: register A for ADD and MULT, register 5 for CMP. That CMP's
output is the whole byte, bits 7..3 being 0, is decision D4 (R90, log entry 7). -/
def Obligations.AluTable : Prop :=
  (∀ a b : Byte,
    (aluApply .add a b).toNat = (a.toNat + b.toNat) % 256 ∧
    (aluApply .mult a b).toNat = (a.toNat * b.toNat) % 256 ∧
    (a.toNat < b.toNat → aluApply .cmp a b = 0x04) ∧
    (b.toNat < a.toNat → aluApply .cmp a b = 0x02) ∧
    (a = b → aluApply .cmp a b = 0x01)) ∧
  ∀ (s : State) (ra rb : Byte),
    let a := s.getReg (namedReg ra)
    let b := s.getReg (namedReg rb)
    (raises s (.add ra rb) = none →
      ∃ t, exec (.add ra rb) s = .next t ∧ t.getReg (namedReg ra) = aluApply .add a b) ∧
    (raises s (.mult ra rb) = none →
      ∃ t, exec (.mult ra rb) s = .next t ∧ t.getReg (namedReg ra) = aluApply .mult a b) ∧
    (raises s (.cmp ra rb) = none →
      ∃ t, exec (.cmp ra rb) s = .next t ∧ t.getReg 5 = aluApply .cmp a b)

/-! ### Fatal faults -/

/-- R112 and R113: under `fault`, an instruction for which R113's table lists a condition that holds
latches the value of the first one, clears `running`, and changes nothing else; no event is emitted.
The policy, the precision and the order are the spec's decisions D1, D2 and D7 (log entries 1, 2 and
11). -/
def Obligations.RangeFaultIsPrecise : Prop :=
  ∀ (s : State) (i : Instr) (c : FaultCause), raises s i = some c →
    exec i s = .next { s with fault := some c, running := false }

/-- R113's list is complete, and `wrap` has no fault (R5, decision D1, log entry 1): where no
condition of the table holds, every instruction answers a next state, latches nothing, and leaves
`running` as it was unless it is HLT. That HLT never raises, also at pc 0xFF, is decision D5 (R72;
log entry 8). -/
def Obligations.NoConditionNoFault : Prop :=
  ∀ (s : State) (i : Instr), raises s i = none →
    ∃ t, exec i s = .next t ∧ t.fault = s.fault ∧
      t.running = (if i = .hlt then false else s.running)

/-- R86, R114: no instruction raises UnsupportedAluOp (decision D13, log entry 12). -/
def Obligations.NoUnsupportedAluOp : Prop :=
  ∀ (s t : State) (i : Instr), exec i s = .next t → t.fault = some .unsupportedAluOp →
    s.fault = some .unsupportedAluOp

/-- D1 (log entry 1): the policy matters only where R113's table has a condition that holds:
otherwise both policies give the same state, but for the parameter itself. -/
def Obligations.PolicyMattersOnlyOutOfRange : Prop :=
  ∀ (s t : State) (i : Instr), s.rangePolicy = .fault → raises s i = none →
    exec i s = .next t →
    exec i { s with rangePolicy := .wrap } = .next { t with rangePolicy := .wrap }

/-! ### Frames: what every instruction leaves unchanged -/

/-- R23: every register outside the table's "writes" column keeps its value, for every instruction,
whether it completes or takes a fatal fault. FL and SP are registers 5 and 6. That a faulting
instruction changes nothing but the latch and running is decision D2 (log entry 2). -/
def Obligations.RegisterFrame : Prop :=
  ∀ (s t : State) (i : Instr), exec i s = .next t →
    ∀ j : Fin 8, j ∉ writtenRegs i → t.getReg j = s.getReg j

/-- R31, R34, R42: every byte of memory outside the table's "writes" column reads as before: PUSH
and CALL store to SP - 1 alone, every other instruction stores nothing. That a faulting instruction
changes nothing but the latch and running is decision D2 (log entry 2). -/
def Obligations.MemoryFrame : Prop :=
  ∀ (s t : State) (i : Instr), exec i s = .next t →
    ∀ a : Byte, a ∉ storedAddrs s i → t.memRead a = s.memRead a

/-- R16, R17, R112: what becomes of `running`, the latch and the parameter: unchanged, but that HLT
clears `running`; or the fatal fault of R113's table, which sets the latch and clears `running` (the
spec's decisions D1 and D2, and D7 for which cause; log entries 1, 2 and 11). That RANGE_POLICY is a
field that no instruction changes is the model's own choice (R3 makes it a parameter; log entry 1).
-/
def Obligations.ControlFrame : Prop :=
  ∀ (s t : State) (i : Instr), exec i s = .next t →
    t.rangePolicy = s.rangePolicy ∧
    ((raises s i = none ∧ t.fault = s.fault ∧
        t.running = (if i = .hlt then false else s.running)) ∨
      (∃ c, raises s i = some c ∧ t.fault = some c ∧ t.running = false ∧ t.pc = s.pc))

/-- R138: at most one event an instruction, the last of the log; only PRN emits `Out` and only an
unknown opcode emits `UnknownOpcode`; every other instruction, and a faulting one, leaves the log as
it was (decision D8, log entry 10). That a faulting instruction changes nothing but the latch and
running is decision D2 (log entry 2). The range conditions are decision D1 (R113; log entry 1). -/
def Obligations.EventFrame : Prop :=
  ∀ (s t : State) (i : Instr), exec i s = .next t →
    t.events = s.events ++
      (match i, raises s i with
        | .prn r, none => [.out (s.getReg (namedReg r))]
        | .unknown op, none => [.unknownOpcode s.pc op]
        | _, _ => [])

/-- R24: an instruction other than CMP changes no flag and no other bit of FL, unless its
destination operand names register 5. That a faulting instruction changes nothing but the latch and
running is decision D2 (log entry 2). -/
def Obligations.OnlyCmpSetsFlags : Prop :=
  ∀ (s t : State) (i : Instr), exec i s = .next t →
    (∀ ra rb, i ≠ .cmp ra rb) →
    (∀ r v, i = .ldi r v → namedReg r ≠ 5) → (∀ ra rb, i = .add ra rb → namedReg ra ≠ 5) →
    (∀ ra rb, i = .mult ra rb → namedReg ra ≠ 5) → (∀ r, i = .pop r → namedReg r ≠ 5) →
    t.flagE = s.flagE ∧ t.flagG = s.flagG ∧ t.flagL = s.flagL ∧ t.fl = s.fl

/-- R13: without a fault, `pc` moves by the length of the instruction, for every instruction but
CALL and RET. The range conditions are decision D1 (log entry 1). That HLT too advances pc, by one
modulo 256 and without raising at 0xFF, is decision D5 (R72, R15; log entry 8). -/
def Obligations.PcAdvance : Prop :=
  ∀ (s t : State) (i : Instr), (∀ r, i ≠ .call r) → i ≠ .ret →
    raises s i = none → exec i s = .next t →
    t.pc = s.pc + BitVec.ofNat 8 (encode i).length

/-- R16, R17, R27: no instruction reads `running`, the fault latch or the event log: two states that
differ only there go to states that differ only there, emit the same and latch the same. That a
faulting instruction changes nothing but the latch and running is decision D2 (log entry 2). Which
cause is latched is decisions D1 and D7 (log entries 1 and 11); the log of events is decision D8
(log entry 10). -/
def Obligations.ControlStateNotRead : Prop :=
  ∀ (s s' t t' : State) (i : Instr), s'.regs = s.regs → s'.pc = s.pc → s'.mem = s.mem →
    s'.rangePolicy = s.rangePolicy → exec i s = .next t → exec i s' = .next t' →
    t'.regs = t.regs ∧ t'.pc = t.pc ∧ t'.mem = t.mem ∧
    (∃ new, t.events = s.events ++ new ∧ t'.events = s'.events ++ new) ∧
    (t.fault = s.fault ∧ t'.fault = s'.fault ∨ t.fault = t'.fault)

/-! ### Whole-machine rules -/

/-- Every step of every state answers a next state: nothing the spec gives stops the model (R6, R58,
R70, R112). That a fatal fault is a next state is log entry 2; that the step of a stopped engine
answers the same state is log entry 4. -/
def Obligations.EveryStepGoesOn : Prop := ∀ s : State, ∃ t, step s = .next t

/-- Every step keeps the invariant: canonical memory, no `running` with a latched fault (R18), only
causes of R113 in the latch and none under `wrap`, only events of R138 in the log. The latch, the
policy and the log are the spec's decisions D2, D1 and D8 (log entries 2, 1 and 10); that nothing
raises UnsupportedAluOp is D13 (log entry 12); a step of a stopped engine is log entry 4. -/
def Obligations.StepKeepsInv : Prop :=
  ∀ s t : State, s.Inv → step s = .next t → t.Inv

/-- R16, R124 (decision D11): once `running` is false no number of steps changes anything; that such
a step answers the same state is log entry 4 (DEDUCED from R70). -/
def Obligations.StoppedForever : Prop :=
  ∀ (s : State) (k : Nat), s.running = false → Sys2Proof.core.run k s = .next s

/-- R74: a step clears `running` only by executing HLT or by a fatal fault. That the latched cause
is the first condition of R113's table that holds is decisions D1 and D7 (R113, R117; log entries 1
and 11), and that it is latched with running cleared is decision D2 (R112; log entry 2). -/
def Obligations.TerminationPaths : Prop :=
  ∀ s t : State, s.running = true → step s = .next t → t.running = false →
    s.fetch = .hlt ∨ ∃ c, raises s s.fetch = some c ∧ t.fault = some c

/-- R144: a run that ends ends successfully exactly when the last executed instruction was HLT (from
a state in which no fault is latched while running, R18). The latch that tells the two ends apart is
decision D2 (log entry 2). That HLT never raises is decision D5 (R72; log entry 8). -/
def Obligations.SuccessfulEndIsHlt : Prop :=
  ∀ s t : State, s.Inv → s.running = true → step s = .next t → t.Over →
    (t.Successful ↔ s.fetch = .hlt)

/-- R18: in a state of the invariant the status is RUNNING, HALTED or FAULTED as R18 says, and a
faulted engine is not running (the latch is decision D2, log entry 2). -/
def Obligations.StatusOfState : Prop :=
  ∀ s : State, s.Inv →
    (s.status = .running ↔ s.running = true) ∧
    (s.status = .halted ↔ s.running = false ∧ s.fault = none) ∧
    (s.status = .faulted ↔ s.fault ≠ none) ∧
    (s.status = .faulted → s.running = false)

/-- R115, R141: the cause code of the status view (decision D12, log entry 16), and that in a state
of the invariant it is never 3 (R114, decision D13, log entry 12). -/
def Obligations.CauseCodes : Prop :=
  (∀ s : State,
    (s.fault = none → s.causeCode = 0) ∧
    (∀ v, s.fault = some (.rangeFault .registerIndex v) → s.causeCode = 1) ∧
    (∀ v, s.fault = some (.rangeFault .address v) → s.causeCode = 2) ∧
    (s.fault = some .unsupportedAluOp → s.causeCode = 3)) ∧
  ∀ s : State, s.Inv → s.causeCode ≤ 2

/-- R138, R81, R73: the two kinds of event are on separate channels: PRN adds its value to the
output and nothing to the reports, an unknown opcode the other way round. That the channels are
separate, and the form of the report, is the spec's decision D8, which the source does not settle
(log entry 10). The range conditions are decision D1 (R113; log entry 1). -/
def Obligations.SeparateChannels : Prop :=
  ∀ (s : State),
    (∀ r, raises s (.prn r) = none → ∃ t, exec (.prn r) s = .next t ∧
      t.outputs = s.outputs ++ [s.getReg (namedReg r)] ∧ t.reports = s.reports) ∧
    (∀ op, raises s (.unknown op) = none → ∃ t, exec (.unknown op) s = .next t ∧
      t.outputs = s.outputs ∧ t.reports = s.reports ++ [(s.pc, op)])

/-- The testable property of R80 (S1), at any place in memory: LDI followed by HLT, nothing raised,
leaves the immediate in the named register and `running` false after two steps (R72). The range
conditions are decision D1 (log entry 1). Where pc is after HLT at 0xFF is decision D5 (log entry
8). -/
def Obligations.LdiThenHlt : Prop :=
  ∀ (s : State) (r value : Byte), s.running = true → raises s (.ldi r value) = none →
    s.memRead s.pc = 0x82 → s.memRead (s.pc + 1) = r → s.memRead (s.pc + 2) = value →
    s.memRead (s.pc + 3) = 0x01 →
    ∃ t, Sys2Proof.core.run 2 s = .next t ∧ t.getReg (namedReg r) = value ∧ t.running = false ∧
      t.pc = s.pc + 4 ∧ t.fault = s.fault

/-! ### Stack discipline -/

/-- R97: PUSH of a register other than 6, then POP into a register other than 6, neither faulting:
the destination holds the source's value from before the push, and SP is back. The range conditions
are decision D1 (log entry 1). -/
def Obligations.PushPopRestores : Prop :=
  ∀ (s : State) (r q : Byte), namedReg r ≠ 6 → namedReg q ≠ 6 → raises s (.push r) = none →
    ∃ t, exec (.push r) s = .next t ∧ (raises t (.pop q) = none →
      ∃ u, exec (.pop q) t = .next u ∧ u.getReg (namedReg q) = s.getReg (namedReg r) ∧
        u.getReg 6 = s.getReg 6)

/-- R102: after a CALL, a RET at any later state in which SP and the cell that holds the return
address are as the CALL left them goes to the address after the CALL, and SP is back. The range
conditions are decision D1 (log entry 1). -/
def Obligations.CallRetReturns : Prop :=
  ∀ (s : State) (r : Byte), raises s (.call r) = none →
    ∃ t, exec (.call r) s = .next t ∧ ∀ u : State, u.getReg 6 = t.getReg 6 →
      u.memRead (t.getReg 6) = t.memRead (t.getReg 6) →
      ∃ w, exec .ret u = .next w ∧
        (raises u .ret = none → w.pc = s.pc + 2 ∧ w.getReg 6 = s.getReg 6) ∧
        (s.rangePolicy = .fault → raises u .ret = none)

/-- R95, R101: PUSH of a register other than 6, then RET: an indirect jump to the register's value,
with SP back. The range conditions are decision D1 (log entry 1). -/
def Obligations.PushRetJumps : Prop :=
  ∀ (s : State) (r : Byte), namedReg r ≠ 6 → raises s (.push r) = none →
    ∃ t, exec (.push r) s = .next t ∧ ∃ u, exec .ret t = .next u ∧
      u.pc = s.getReg (namedReg r) ∧ u.getReg 6 = s.getReg 6 ∧ u.fault = s.fault

/-! ### The accessors -/

/-- R30: MemRead returns the cell and MemWrite sets it, and nothing else changes. -/
def Obligations.MemoryAccessors : Prop :=
  ∀ (s : State) (a b v : Byte),
    (s.memWrite a v).memRead b = (if b = a then v else s.memRead b) ∧
    s.memWrite a v = { s with mem := (s.memWrite a v).mem }
end

