-- ==== Sys2Proof/Laws/Decode.lean ====
section
/-!
SUPPORT. The opcode map as one case split, so that proofs about decoding and fetching need not unfold
the if-chains.
-/

namespace Sys2Proof

/-- Every opcode byte is one of the ten, or the dispatch table gives UNKNOWN for it (R55, R58, R71). -/
theorem opcode_cases (op : Byte) :
    op = 0x01 ∨ op = 0x82 ∨ op = 0x47 ∨ op = 0xA2 ∨ op = 0xA0 ∨ op = 0x45 ∨ op = 0x46 ∨ op = 0x50 ∨
      op = 0x11 ∨ op = 0xA7 ∨
      (formatOf op = none ∧ (∀ b1 b2, dispatch op b1 b2 = .unknown op) ∧
        op ≠ 0x01 ∧ op ≠ 0x82 ∧ op ≠ 0x47 ∧ op ≠ 0xA2 ∧ op ≠ 0xA0 ∧ op ≠ 0x45 ∧ op ≠ 0x46 ∧
        op ≠ 0x50 ∧ op ≠ 0x11 ∧ op ≠ 0xA7) := by
  by_cases h1 : op = 0x01#8
  · simp [h1]
  by_cases h2 : op = 0x82#8
  · simp [h2]
  by_cases h3 : op = 0x47#8
  · simp [h3]
  by_cases h4 : op = 0xA2#8
  · simp [h4]
  by_cases h5 : op = 0xA0#8
  · simp [h5]
  by_cases h6 : op = 0x45#8
  · simp [h6]
  by_cases h7 : op = 0x46#8
  · simp [h7]
  by_cases h8 : op = 0x50#8
  · simp [h8]
  by_cases h9 : op = 0x11#8
  · simp [h9]
  by_cases h10 : op = 0xA7#8
  · simp [h10]
  iterate 10 right
  refine ⟨?_, fun b1 b2 => ?_, h1, h2, h3, h4, h5, h6, h7, h8, h9, h10⟩
  · rw [formatOf, if_neg h1, if_neg h2, if_neg h3, if_neg h4, if_neg h5, if_neg h6, if_neg h7,
      if_neg h8, if_neg h9, if_neg h10]
  · rw [dispatch, if_neg h1, if_neg h2, if_neg h3, if_neg h4, if_neg h5, if_neg h6, if_neg h7,
      if_neg h8, if_neg h9, if_neg h10]

theorem operandCount_of_unknown {op : Byte} (h : formatOf op = none) : operandCount op = 0 := by
  simp [operandCount, h]

/-- The dispatch table gives only well-formed instructions. -/
theorem dispatch_wellFormed (op b1 b2 : Byte) : (dispatch op b1 b2).wellFormed = true := by
  rcases opcode_cases op with rfl | rfl | rfl | rfl | rfl | rfl | rfl | rfl | rfl | rfl | ⟨hn, hd, -⟩
  case inr.inr.inr.inr.inr.inr.inr.inr.inr.inr => simp [hd, Instr.wellFormed, hn]
  all_goals rfl

namespace Machine

theorem State.fetchByte_zero (s : State) : s.fetchByte 0 = s.memRead s.pc := by
  simp [State.fetchByte]

theorem State.fetchByte_one (s : State) : s.fetchByte 1 = s.memRead (s.pc + 1) := rfl

theorem State.fetchByte_two (s : State) : s.fetchByte 2 = s.memRead (s.pc + 2) := rfl

/-- The fetched instruction in terms of MemRead. -/
theorem State.fetch_eq (s : State) :
    s.fetch = dispatch (s.memRead s.pc) (s.memRead (s.pc + 1)) (s.memRead (s.pc + 2)) := by
  rw [State.fetch, State.fetchByte_zero, State.fetchByte_one, State.fetchByte_two]

theorem State.fetch_wellFormed (s : State) : s.fetch.wellFormed = true :=
  dispatch_wellFormed _ _ _

end Machine

end Sys2Proof
end

