-- ==== Sys2Proof/Laws/State.lean ====
section
/-!
SUPPORT. One lemma per field per update of the state, true by rfl, and what the accessors read after
each update.
-/

namespace Sys2Proof.Machine

/-! ### memWrite -/

@[simp] theorem State.memWrite_regs (s : State) (a v : Byte) : (s.memWrite a v).regs = s.regs := rfl
@[simp] theorem State.memWrite_pc (s : State) (a v : Byte) : (s.memWrite a v).pc = s.pc := rfl
@[simp] theorem State.memWrite_running (s : State) (a v : Byte) : (s.memWrite a v).running = s.running := rfl
@[simp] theorem State.memWrite_fault (s : State) (a v : Byte) : (s.memWrite a v).fault = s.fault := rfl
@[simp] theorem State.memWrite_mem (s : State) (a v : Byte) : (s.memWrite a v).mem = s.mem.setCell a.toNat v := rfl
@[simp] theorem State.memWrite_events (s : State) (a v : Byte) : (s.memWrite a v).events = s.events := rfl
@[simp] theorem State.memWrite_rangePolicy (s : State) (a v : Byte) : (s.memWrite a v).rangePolicy = s.rangePolicy := rfl

/-! ### setReg -/

@[simp] theorem State.setReg_regs (s : State) (i : Fin 8) (v : Byte) : (s.setReg i v).regs = s.regs.set i v := rfl
@[simp] theorem State.setReg_pc (s : State) (i : Fin 8) (v : Byte) : (s.setReg i v).pc = s.pc := rfl
@[simp] theorem State.setReg_running (s : State) (i : Fin 8) (v : Byte) : (s.setReg i v).running = s.running := rfl
@[simp] theorem State.setReg_fault (s : State) (i : Fin 8) (v : Byte) : (s.setReg i v).fault = s.fault := rfl
@[simp] theorem State.setReg_mem (s : State) (i : Fin 8) (v : Byte) : (s.setReg i v).mem = s.mem := rfl
@[simp] theorem State.setReg_events (s : State) (i : Fin 8) (v : Byte) : (s.setReg i v).events = s.events := rfl
@[simp] theorem State.setReg_rangePolicy (s : State) (i : Fin 8) (v : Byte) : (s.setReg i v).rangePolicy = s.rangePolicy := rfl

/-! ### setPc -/

@[simp] theorem State.setPc_regs (s : State) (t : Byte) : (s.setPc t).regs = s.regs := rfl
@[simp] theorem State.setPc_pc (s : State) (t : Byte) : (s.setPc t).pc = t := rfl
@[simp] theorem State.setPc_running (s : State) (t : Byte) : (s.setPc t).running = s.running := rfl
@[simp] theorem State.setPc_fault (s : State) (t : Byte) : (s.setPc t).fault = s.fault := rfl
@[simp] theorem State.setPc_mem (s : State) (t : Byte) : (s.setPc t).mem = s.mem := rfl
@[simp] theorem State.setPc_events (s : State) (t : Byte) : (s.setPc t).events = s.events := rfl
@[simp] theorem State.setPc_rangePolicy (s : State) (t : Byte) : (s.setPc t).rangePolicy = s.rangePolicy := rfl

/-! ### emit -/

@[simp] theorem State.emit_regs (s : State) (e : Event) : (s.emit e).regs = s.regs := rfl
@[simp] theorem State.emit_pc (s : State) (e : Event) : (s.emit e).pc = s.pc := rfl
@[simp] theorem State.emit_running (s : State) (e : Event) : (s.emit e).running = s.running := rfl
@[simp] theorem State.emit_fault (s : State) (e : Event) : (s.emit e).fault = s.fault := rfl
@[simp] theorem State.emit_mem (s : State) (e : Event) : (s.emit e).mem = s.mem := rfl
@[simp] theorem State.emit_events (s : State) (e : Event) : (s.emit e).events = s.events ++ [e] := rfl
@[simp] theorem State.emit_rangePolicy (s : State) (e : Event) : (s.emit e).rangePolicy = s.rangePolicy := rfl

/-! ### raise -/

@[simp] theorem State.raise_regs (s : State) (c : FaultCause) : (s.raise c).regs = s.regs := rfl
@[simp] theorem State.raise_pc (s : State) (c : FaultCause) : (s.raise c).pc = s.pc := rfl
@[simp] theorem State.raise_running (s : State) (c : FaultCause) : (s.raise c).running = false := rfl
@[simp] theorem State.raise_fault (s : State) (c : FaultCause) : (s.raise c).fault = some c := rfl
@[simp] theorem State.raise_mem (s : State) (c : FaultCause) : (s.raise c).mem = s.mem := rfl
@[simp] theorem State.raise_events (s : State) (c : FaultCause) : (s.raise c).events = s.events := rfl
@[simp] theorem State.raise_rangePolicy (s : State) (c : FaultCause) : (s.raise c).rangePolicy = s.rangePolicy := rfl

/-! ### Register reads -/

theorem State.getReg_setReg (s : State) (i j : Fin 8) (v : Byte) :
    (s.setReg i v).getReg j = if j = i then v else s.getReg j := by
  simp only [State.getReg, State.setReg, Fin.getElem_fin, Vector.getElem_set, Fin.ext_iff, eq_comm]

@[simp] theorem State.getReg_setReg_self (s : State) (i : Fin 8) (v : Byte) :
    (s.setReg i v).getReg i = v := by simp [State.getReg_setReg]

theorem State.getReg_setReg_ne (s : State) {i j : Fin 8} (v : Byte) (h : j ≠ i) :
    (s.setReg i v).getReg j = s.getReg j := by simp [State.getReg_setReg, h]

@[simp] theorem State.getReg_memWrite (s : State) (a v : Byte) (i : Fin 8) :
    (s.memWrite a v).getReg i = s.getReg i := rfl

@[simp] theorem State.getReg_setPc (s : State) (t : Byte) (i : Fin 8) :
    (s.setPc t).getReg i = s.getReg i := rfl

@[simp] theorem State.getReg_emit (s : State) (e : Event) (i : Fin 8) :
    (s.emit e).getReg i = s.getReg i := rfl

@[simp] theorem State.getReg_raise (s : State) (c : FaultCause) (i : Fin 8) :
    (s.raise c).getReg i = s.getReg i := rfl

/-! ### Memory reads of updates that do not write memory -/

@[simp] theorem State.memRead_setReg (s : State) (i : Fin 8) (v a : Byte) :
    (s.setReg i v).memRead a = s.memRead a := rfl

@[simp] theorem State.memRead_setPc (s : State) (t a : Byte) :
    (s.setPc t).memRead a = s.memRead a := rfl

@[simp] theorem State.memRead_emit (s : State) (e : Event) (a : Byte) :
    (s.emit e).memRead a = s.memRead a := rfl

@[simp] theorem State.memRead_raise (s : State) (c : FaultCause) (a : Byte) :
    (s.raise c).memRead a = s.memRead a := rfl

end Sys2Proof.Machine
end

