-- ==== Sys2Proof/Laws/Memory.lean ====
section
/-!
SUPPORT. Memory: what a read gives after each list operation, and that every operation keeps the
canonical form.
-/

namespace Sys2Proof.Machine

/-! ### Reads -/

theorem Memory.cell_erase (m : Memory) (a b : Nat) :
    Memory.cell (m.erase a) b = if b = a then memReset else m.cell b := by
  induction m with
  | nil => simp [Memory.erase, Memory.cell]
  | cons c m ih =>
    obtain ⟨k, w⟩ := c
    rw [Memory.erase, List.filter_cons]
    by_cases hk : k = a
    · subst hk
      rw [if_neg (by simp), ← Memory.erase, ih, Memory.cell]
      split <;> simp_all [eq_comm]
    · rw [if_pos (by simpa using hk), ← Memory.erase, Memory.cell, ih, Memory.cell]
      split <;> simp_all

theorem Memory.cell_insert (m : Memory) (a b : Nat) (v : Byte) (h : ∀ c ∈ m, c.1 ≠ a) :
    Memory.cell (m.insert a v) b = if b = a then v else m.cell b := by
  induction m with
  | nil => simp [Memory.insert, Memory.cell, eq_comm]
  | cons c m ih =>
    obtain ⟨k, w⟩ := c
    have hk : k ≠ a := h (k, w) (by simp)
    have hm : ∀ c ∈ m, c.1 ≠ a := fun c hc => h c (by simp [hc])
    rw [Memory.insert]
    split
    · simp [Memory.cell, eq_comm]
    · rw [Memory.cell, ih hm, Memory.cell]
      split <;> simp_all

theorem Memory.key_ne_of_mem_erase {m : Memory} {a : Nat} {c : Host.Cell} (h : c ∈ m.erase a) :
    c.1 ≠ a := by
  simpa using (List.mem_filter.mp h).2

/-- A read after a write gives the value written at that address, and what was there elsewhere; no
canonical form is needed. -/
theorem Memory.cell_setCell (m : Memory) (a b : Nat) (v : Byte) :
    Memory.cell (m.setCell a v) b = if b = a then v else m.cell b := by
  rw [Memory.setCell]
  split
  · next h => rw [Memory.cell_erase, h]
  · rw [Memory.cell_insert _ _ _ _ fun _ => Memory.key_ne_of_mem_erase, Memory.cell_erase]
    split <;> simp_all

/-! ### The canonical form -/

theorem Memory.wf_nil : Memory.wf [] := by simp [Memory.wf]

theorem Memory.wf_erase {m : Memory} (a : Nat) (h : m.wf) : Memory.wf (m.erase a) :=
  ⟨h.1.sublist List.filter_sublist, fun c hc => h.2 c (List.mem_of_mem_filter hc)⟩

theorem Memory.mem_insert {m : Memory} {a : Nat} {v : Byte} {c : Host.Cell}
    (h : c ∈ m.insert a v) : c = (a, v) ∨ c ∈ m := by
  induction m with
  | nil => simpa [Memory.insert] using h
  | cons d m ih =>
    obtain ⟨k, w⟩ := d
    rw [Memory.insert] at h
    split at h
    · simpa using h
    · rcases List.mem_cons.mp h with rfl | h
      · simp
      · rcases ih h with rfl | h <;> simp_all

theorem Memory.wf_insert {m : Memory} {a : Nat} {v : Byte} (h : m.wf) (hne : ∀ c ∈ m, c.1 ≠ a)
    (ha : a < Config.memSize) (hv : v ≠ memReset) : Memory.wf (m.insert a v) := by
  refine ⟨?_, fun c hc => ?_⟩
  · have hp := h.1
    clear h
    induction m with
    | nil => simp [Memory.insert]
    | cons d m ih =>
      obtain ⟨k, w⟩ := d
      obtain ⟨hd, hp⟩ := List.pairwise_cons.mp hp
      have hk : k ≠ a := hne (k, w) (by simp)
      rw [Memory.insert]
      split
      · next hlt =>
        refine List.pairwise_cons.mpr ⟨fun c hc => ?_, List.pairwise_cons.mpr ⟨hd, hp⟩⟩
        rcases List.mem_cons.mp hc with rfl | hc
        · exact hlt
        · exact Nat.lt_trans hlt (hd c hc)
      · next hge =>
        refine List.pairwise_cons.mpr ⟨fun c hc => ?_, ih (fun c hc => hne c (by simp [hc])) hp⟩
        rcases Memory.mem_insert hc with rfl | hc
        · show k < a
          omega
        · exact hd c hc
  · rcases Memory.mem_insert hc with rfl | hc
    · exact ⟨ha, hv⟩
    · exact h.2 c hc

/-- Storing a cell at an address keeps the canonical form. -/
theorem Memory.wf_setCell {m : Memory} {a : Nat} (v : Byte) (h : m.wf) (ha : a < Config.memSize) :
    Memory.wf (m.setCell a v) := by
  rw [Memory.setCell]
  split
  · exact Memory.wf_erase a h
  · next hv => exact Memory.wf_insert (Memory.wf_erase a h) (fun _ => Memory.key_ne_of_mem_erase) ha hv

theorem State.memWrite_wf {s : State} (a v : Byte) (h : s.mem.wf) : (s.memWrite a v).mem.wf :=
  Memory.wf_setCell v h a.isLt

theorem Memory.key_ge_of_mem_ofBytes {image : List Byte} {a : Nat} {c : Host.Cell}
    (h : c ∈ Memory.ofBytes a image) : a ≤ c.1 ∧ c.1 < a + image.length ∧ c.2 ≠ memReset := by
  induction image generalizing a with
  | nil => simp [Memory.ofBytes] at h
  | cons v vs ih =>
    rw [Memory.ofBytes] at h
    split at h
    · have := ih h
      simp only [List.length_cons]
      exact ⟨by omega, by omega, this.2.2⟩
    · next hv =>
      rcases List.mem_cons.mp h with rfl | h
      · exact ⟨Nat.le_refl _, by simp, hv⟩
      · have := ih h
        simp only [List.length_cons]
        exact ⟨by omega, by omega, this.2.2⟩

/-- The image of at most 256 bytes that the loader places from address 0 is in canonical form. -/
theorem Memory.wf_ofBytes {image : List Byte} (h : image.length ≤ Config.memSize) :
    (Memory.ofBytes 0 image).wf := by
  refine ⟨?_, fun c hc => ?_⟩
  · generalize (0 : Nat) = a
    clear h
    induction image generalizing a with
    | nil => simp [Memory.ofBytes]
    | cons v vs ih =>
      rw [Memory.ofBytes]
      split
      · exact ih _
      · exact List.pairwise_cons.mpr ⟨fun c hc => (Memory.key_ge_of_mem_ofBytes hc).1, ih _⟩
  · have := Memory.key_ge_of_mem_ofBytes hc
    exact ⟨by omega, this.2.2⟩

theorem State.load_wf {s t : State} {image : List Byte} (h : s.load image = .ok t) : t.mem.wf := by
  rw [State.load] at h
  split at h
  · next hl =>
    cases h
    exact Memory.wf_ofBytes hl
  · cases h

theorem State.writeBytes_wf {s : State} (a : Byte) (code : List Byte) (h : s.mem.wf) :
    (s.writeBytes a code).mem.wf := by
  induction code generalizing s a with
  | nil => exact h
  | cons v vs ih => exact ih (a + 1) (State.memWrite_wf a v h)

theorem State.placeCode_wf {s : State} (code : List Byte) (h : s.mem.wf) :
    (s.placeCode code).mem.wf :=
  State.writeBytes_wf s.pc code h

theorem State.reset_wf : State.reset.mem.wf := Memory.wf_nil

end Sys2Proof.Machine
end

