-- ==== Sys2Proof/Laws/Ops.lean ====
section
/-!
SUPPORT. For each shared operation, the lemma that says everything it can answer: when it answers a
value and which, and when it raises and what. Proofs about the meanings cite these and do not unfold
the operations.
-/

namespace Sys2Proof.Machine

/-! ### Sequencing -/

theorem bind_ok {α β : Type} {x : Except FaultCause α} {f : α → Except FaultCause β} {b : β} :
    (x >>= f) = .ok b ↔ ∃ a, x = .ok a ∧ f a = .ok b := by
  cases x <;> simp [bind, Except.bind]

theorem bind_error {α β : Type} {x : Except FaultCause α} {f : α → Except FaultCause β}
    {c : FaultCause} :
    (x >>= f) = .error c ↔ x = .error c ∨ ∃ a, x = .ok a ∧ f a = .error c := by
  cases x <;> simp [bind, Except.bind]

theorem pure_ok {α : Type} {a b : α} : (pure a : Except FaultCause α) = .ok b ↔ b = a := by
  simp [pure, Except.pure, eq_comm]

theorem pure_error {α : Type} {a : α} {c : FaultCause} :
    (pure a : Except FaultCause α) = .error c ↔ False := by
  simp [pure, Except.pure]

/-- The end of an instruction is always a next state: the working copy, or the fatal-fault action. -/
theorem settle_next {s t : State} {x : Except FaultCause State} :
    settle s x = .next t ↔ x = .ok t ∨ ∃ c, x = .error c ∧ t = s.raise c := by
  cases x <;> simp [settle, eq_comm]

/-- An instruction that ends in `settle` always answers a next state. -/
theorem settle_answers (s : State) (x : Except FaultCause State) : ∃ t, settle s x = .next t := by
  cases x <;> simp [settle]

theorem settle_ok {s t : State} {x : Except FaultCause State} (h : x = .ok t) :
    settle s x = .next t := by rw [h, settle]

theorem settle_error {s : State} {x : Except FaultCause State} {c : FaultCause}
    (h : x = .error c) : settle s x = .next (s.raise c) := by rw [h, settle]

/-! ### AddrAdd and RegIndex -/

theorem addrAdd_ok {p : RangePolicy} {a t : Byte} {k : Int} :
    addrAdd p a k = .ok t ↔
      (p = .wrap ∨ 0 ≤ (a.toNat : Int) + k ∧ (a.toNat : Int) + k ≤ 255) ∧
        t = BitVec.ofInt 8 ((a.toNat : Int) + k) := by
  cases p <;> by_cases h : 0 ≤ (a.toNat : Int) + k ∧ (a.toNat : Int) + k ≤ 255 <;>
    simp [addrAdd, h, eq_comm]

theorem addrAdd_error {p : RangePolicy} {a : Byte} {k : Int} {c : FaultCause} :
    addrAdd p a k = .error c ↔
      p = .fault ∧ ¬(0 ≤ (a.toNat : Int) + k ∧ (a.toNat : Int) + k ≤ 255) ∧
        c = .rangeFault .address ((a.toNat : Int) + k) := by
  cases p <;> by_cases h : 0 ≤ (a.toNat : Int) + k ∧ (a.toNat : Int) + k ≤ 255 <;>
    simp [addrAdd, h, eq_comm]

/-- The sum that AddrAdd answers for a natural `k` is the 8-bit sum. -/
theorem ofInt_toNat_add (a : Byte) (k : Nat) :
    BitVec.ofInt 8 ((a.toNat : Int) + (k : Int)) = a + BitVec.ofNat 8 k := by
  rw [BitVec.ofInt_add]
  simp

/-- The value that AddrAdd answers for `k = -1` is the 8-bit predecessor. -/
theorem ofInt_toNat_pred (a : Byte) : BitVec.ofInt 8 ((a.toNat : Int) + -1) = a - 1 := by
  rw [BitVec.ofInt_add]
  simp [BitVec.sub_eq_add_neg]

theorem regIndex_ok {p : RangePolicy} {b : Byte} {r : Fin 8} :
    regIndex p b = .ok r ↔ (p = .wrap ∨ b.toNat ≤ 7) ∧ r = Fin.ofNat 8 b.toNat := by
  cases p <;> by_cases h : b.toNat ≤ 7 <;> simp [regIndex, h, eq_comm]

theorem regIndex_error {p : RangePolicy} {b : Byte} {c : FaultCause} :
    regIndex p b = .error c ↔
      p = .fault ∧ 7 < b.toNat ∧ c = .rangeFault .registerIndex b.toNat := by
  cases p <;> by_cases h : b.toNat ≤ 7 <;> simp [regIndex, h, eq_comm]; omega

/-! ### The operand forms -/

theorem State.operandAddrs_zero (s : State) : s.operandAddrs 0 = .ok () := rfl

theorem State.operandAddrs_one_ok {s : State} {u : Unit} :
    s.operandAddrs 1 = .ok u ↔ s.rangePolicy = .wrap ∨ s.pc.toNat ≤ 254 := by
  simp only [State.operandAddrs, bind_ok, addrAdd_ok, pure_ok]
  grind

theorem State.operandAddrs_one_error {s : State} {c : FaultCause} :
    s.operandAddrs 1 = .error c ↔
      s.rangePolicy = .fault ∧ s.pc.toNat = 255 ∧ c = .rangeFault .address 256 := by
  have := s.pc.isLt
  simp only [State.operandAddrs, bind_error, addrAdd_error, pure_error]
  grind

theorem State.operandAddrs_two_ok {s : State} {u : Unit} :
    s.operandAddrs 2 = .ok u ↔ s.rangePolicy = .wrap ∨ s.pc.toNat ≤ 253 := by
  rw [State.operandAddrs]
  simp only [bind_ok, State.operandAddrs_one_ok, addrAdd_ok, pure_ok]
  grind

theorem State.operandAddrs_two_error {s : State} {c : FaultCause} :
    s.operandAddrs 2 = .error c ↔
      s.rangePolicy = .fault ∧ 254 ≤ s.pc.toNat ∧ c = .rangeFault .address 256 := by
  have := s.pc.isLt
  rw [State.operandAddrs]
  simp only [bind_error, State.operandAddrs_one_error, State.operandAddrs_one_ok, addrAdd_error,
    pure_error]
  grind

theorem State.operandsF1_ok {s : State} {b : Byte} {r : Fin 8} :
    s.operandsF1 b = .ok r ↔
      (s.rangePolicy = .wrap ∨ s.pc.toNat ≤ 254 ∧ b.toNat ≤ 7) ∧ r = Fin.ofNat 8 b.toNat := by
  rw [State.operandsF1, bind_ok]
  simp only [State.operandAddrs_one_ok, regIndex_ok]
  grind

theorem State.operandsF1_error {s : State} {b : Byte} {c : FaultCause} :
    s.operandsF1 b = .error c ↔
      s.rangePolicy = .fault ∧
        (s.pc.toNat = 255 ∧ c = .rangeFault .address 256 ∨
          s.pc.toNat ≤ 254 ∧ 7 < b.toNat ∧ c = .rangeFault .registerIndex b.toNat) := by
  rw [State.operandsF1, bind_error]
  simp only [State.operandAddrs_one_ok, State.operandAddrs_one_error, regIndex_error]
  grind

theorem State.operandsF2I_ok {s : State} {b : Byte} {r : Fin 8} :
    s.operandsF2I b = .ok r ↔
      (s.rangePolicy = .wrap ∨ s.pc.toNat ≤ 253 ∧ b.toNat ≤ 7) ∧ r = Fin.ofNat 8 b.toNat := by
  rw [State.operandsF2I, bind_ok]
  simp only [State.operandAddrs_two_ok, regIndex_ok]
  grind

theorem State.operandsF2I_error {s : State} {b : Byte} {c : FaultCause} :
    s.operandsF2I b = .error c ↔
      s.rangePolicy = .fault ∧
        (254 ≤ s.pc.toNat ∧ c = .rangeFault .address 256 ∨
          s.pc.toNat ≤ 253 ∧ 7 < b.toNat ∧ c = .rangeFault .registerIndex b.toNat) := by
  rw [State.operandsF2I, bind_error]
  simp only [State.operandAddrs_two_ok, State.operandAddrs_two_error, regIndex_error]
  grind

theorem State.operandsF2R_ok {s : State} {a b : Byte} {r : Fin 8 × Fin 8} :
    s.operandsF2R a b = .ok r ↔
      (s.rangePolicy = .wrap ∨ s.pc.toNat ≤ 253 ∧ a.toNat ≤ 7 ∧ b.toNat ≤ 7) ∧
        r = (Fin.ofNat 8 a.toNat, Fin.ofNat 8 b.toNat) := by
  rw [State.operandsF2R]
  simp only [bind_ok, State.operandAddrs_two_ok, regIndex_ok, pure_ok]
  grind

theorem State.operandsF2R_error {s : State} {a b : Byte} {c : FaultCause} :
    s.operandsF2R a b = .error c ↔
      s.rangePolicy = .fault ∧
        (254 ≤ s.pc.toNat ∧ c = .rangeFault .address 256 ∨
          s.pc.toNat ≤ 253 ∧
            (7 < a.toNat ∧ c = .rangeFault .registerIndex a.toNat ∨
              a.toNat ≤ 7 ∧ 7 < b.toNat ∧ c = .rangeFault .registerIndex b.toNat)) := by
  rw [State.operandsF2R]
  simp only [bind_error, State.operandAddrs_two_ok, State.operandAddrs_two_error, regIndex_ok,
    regIndex_error, pure_error]
  grind

/-! ### The pc advance and the stack pointer -/

theorem State.advance_ok {s t : State} {k : Nat} :
    s.advance k = .ok t ↔
      (s.rangePolicy = .wrap ∨ s.pc.toNat + k ≤ 255) ∧ t = s.setPc (s.pc + BitVec.ofNat 8 k) := by
  simp only [State.advance, bind_ok, addrAdd_ok, pure_ok, ofInt_toNat_add]
  grind

theorem State.advance_error {s : State} {k : Nat} {c : FaultCause} :
    s.advance k = .error c ↔
      s.rangePolicy = .fault ∧ 255 < s.pc.toNat + k ∧
        c = .rangeFault .address ((s.pc.toNat : Int) + k) := by
  simp only [State.advance, bind_error, addrAdd_error, pure_error]
  grind

/-- Decrementing SP (R95, R100): without a RangeFault, the 8-bit predecessor. -/
theorem State.decSp_ok {s t : State} :
    s.moveSp (-1) = .ok t ↔
      (s.rangePolicy = .wrap ∨ s.sp.toNat ≠ 0) ∧ t = s.setReg spIndex (s.sp - 1) := by
  have := s.sp.isLt
  simp only [State.moveSp, bind_ok, addrAdd_ok, pure_ok, ofInt_toNat_pred]
  grind

/-- Decrementing SP raises only at 0x00, and latches -1. -/
theorem State.decSp_error {s : State} {c : FaultCause} :
    s.moveSp (-1) = .error c ↔
      s.rangePolicy = .fault ∧ s.sp.toNat = 0 ∧ c = .rangeFault .address (-1) := by
  have := s.sp.isLt
  simp only [State.moveSp, bind_error, addrAdd_error, pure_error]
  grind

/-- Incrementing SP (R96, R101): without a RangeFault, the 8-bit successor. -/
theorem State.incSp_ok {s t : State} :
    s.moveSp 1 = .ok t ↔
      (s.rangePolicy = .wrap ∨ s.sp.toNat ≠ 255) ∧ t = s.setReg spIndex (s.sp + 1) := by
  have := s.sp.isLt
  have h1 : BitVec.ofInt 8 ((s.sp.toNat : Int) + 1) = s.sp + 1 := ofInt_toNat_add s.sp 1
  simp only [State.moveSp, bind_ok, addrAdd_ok, pure_ok, h1]
  grind

/-- Incrementing SP raises only at 0xFF, and latches 256. -/
theorem State.incSp_error {s : State} {c : FaultCause} :
    s.moveSp 1 = .error c ↔
      s.rangePolicy = .fault ∧ s.sp.toNat = 255 ∧ c = .rangeFault .address 256 := by
  have := s.sp.isLt
  simp only [State.moveSp, bind_error, addrAdd_error, pure_error]
  grind

/-! ### The stack's cell -/

theorem State.storeTop_eq (s : State) (v : Byte) : s.storeTop v = s.memWrite s.sp v := rfl

theorem State.loadTop_eq (s : State) : s.loadTop = s.memRead s.sp := rfl

/-! ### The ALU -/

theorem compareFlags_lt {a b : Byte} (h : a.toNat < b.toNat) : compareFlags a b = flagLess := by
  simp [compareFlags, h]

theorem compareFlags_gt {a b : Byte} (h : b.toNat < a.toNat) : compareFlags a b = flagGreater := by
  simp [compareFlags, h, Nat.lt_asymm h]

theorem compareFlags_self (a : Byte) : compareFlags a a = flagEqual := by
  simp [compareFlags]

@[simp] theorem aluTarget_add (ra : Fin 8) : aluTarget .add ra = ra := rfl

@[simp] theorem aluTarget_mult (ra : Fin 8) : aluTarget .mult ra = ra := rfl

@[simp] theorem aluTarget_cmp (ra : Fin 8) : aluTarget .cmp ra = flIndex := rfl

/-- ADD, MULT and CMP without a RangeFault: the ALU's output of both old values, in its target. -/
theorem State.aluInstr_ok {s t : State} {op : AluOp} {a b : Byte} :
    s.aluInstr op a b = .ok t ↔
      (s.rangePolicy = .wrap ∨ s.pc.toNat ≤ 252 ∧ a.toNat ≤ 7 ∧ b.toNat ≤ 7) ∧
        t = (s.setReg (aluTarget op (Fin.ofNat 8 a.toNat))
          (aluApply op (s.getReg (Fin.ofNat 8 a.toNat)) (s.getReg (Fin.ofNat 8 b.toNat)))).setPc
            (s.pc + 3) := by
  rw [State.aluInstr]
  simp only [bind_ok, State.operandsF2R_ok, Prod.exists, Prod.mk.injEq]
  constructor
  · rintro ⟨_, _, ⟨h, rfl, rfl⟩, h'⟩
    obtain ⟨hk, rfl⟩ := State.advance_ok (k := 3).mp h'
    simp only [State.setReg_rangePolicy, State.setReg_pc] at hk
    exact ⟨by grind, rfl⟩
  · rintro ⟨h, rfl⟩
    refine ⟨_, _, ⟨by grind, rfl, rfl⟩, State.advance_ok (k := 3).mpr ⟨?_, rfl⟩⟩
    simp only [State.setReg_rangePolicy, State.setReg_pc]
    grind

theorem State.aluInstr_error {s : State} {op : AluOp} {a b : Byte} {c : FaultCause} :
    s.aluInstr op a b = .error c ↔
      s.rangePolicy = .fault ∧
        (254 ≤ s.pc.toNat ∧ c = .rangeFault .address 256 ∨
          s.pc.toNat ≤ 253 ∧
            (7 < a.toNat ∧ c = .rangeFault .registerIndex a.toNat ∨
              a.toNat ≤ 7 ∧ 7 < b.toNat ∧ c = .rangeFault .registerIndex b.toNat) ∨
          s.pc.toNat = 253 ∧ a.toNat ≤ 7 ∧ b.toNat ≤ 7 ∧ c = .rangeFault .address 256) := by
  rw [State.aluInstr]
  simp only [bind_error, State.operandsF2R_ok, State.operandsF2R_error, Prod.exists, Prod.mk.injEq]
  constructor
  · rintro (⟨hp, h⟩ | ⟨_, _, ⟨h, rfl, rfl⟩, h'⟩)
    · exact ⟨hp, by tauto⟩
    · obtain ⟨hp, hk, rfl⟩ := State.advance_error (k := 3).mp h'
      simp only [State.setReg_rangePolicy, State.setReg_pc] at hp hk ⊢
      grind
  · rintro ⟨hp, h | h | ⟨h, ha, hb, rfl⟩⟩
    · exact .inl ⟨hp, .inl h⟩
    · exact .inl ⟨hp, .inr h⟩
    · refine .inr ⟨_, _, ⟨.inr ⟨by omega, ha, hb⟩, rfl, rfl⟩, State.advance_error (k := 3).mpr ?_⟩
      simp [hp, h]

/-! ### The step -/

theorem step_of_running {s : State} (h : s.running = true) : step s = exec s.fetch s := by
  simp [step, h]

end Sys2Proof.Machine
end

