-- ==== Sys2Proof/Laws/PerInstr.lean ====
section
/-!
SUPPORT. The family EncodedShape of LAWS.json, one lemma per constructor of Instr: an encoding begins
with the instruction's opcode byte and is as long as that opcode byte says (spec R50, R56, R60).
-/

namespace Sys2Proof.Laws.EncodedShape

/-- The encoding of a well-formed instruction begins with its opcode byte, which alone gives the
length. -/
def Statement (i : Instr) : Prop :=
  i.wellFormed = true →
    (encode i).head? = some (opcodeOf i) ∧ (encode i).length = lengthOf (opcodeOf i)

theorem hlt : Statement .hlt := fun _ => ⟨rfl, rfl⟩

theorem ldi (r value : Byte) : Statement (.ldi r value) :=
  fun _ => ⟨rfl, rfl⟩

theorem prn (r : Byte) : Statement (.prn r) :=
  fun _ => ⟨rfl, rfl⟩

theorem mult (ra rb : Byte) : Statement (.mult ra rb) :=
  fun _ => ⟨rfl, rfl⟩

theorem add (ra rb : Byte) : Statement (.add ra rb) :=
  fun _ => ⟨rfl, rfl⟩

theorem push (r : Byte) : Statement (.push r) :=
  fun _ => ⟨rfl, rfl⟩

theorem pop (r : Byte) : Statement (.pop r) :=
  fun _ => ⟨rfl, rfl⟩

theorem call (r : Byte) : Statement (.call r) :=
  fun _ => ⟨rfl, rfl⟩

theorem ret : Statement .ret := fun _ => ⟨rfl, rfl⟩

theorem cmp (ra rb : Byte) : Statement (.cmp ra rb) :=
  fun _ => ⟨rfl, rfl⟩

theorem unknown (op : Byte) : Statement (.unknown op) := by
  intro h
  have hn : formatOf op = none := by simpa [Instr.wellFormed] using h
  exact ⟨rfl, by simp [encode, opcodeOf, lengthOf, operandCount, hn]⟩

end Sys2Proof.Laws.EncodedShape
end

