-- ==== Sys2Proof/Tests/Slice0.lean ====
section
/-!
SUPPORT. The model's own tests. Expected values come from spec/95_test_vectors.md (the vector's id is
named in each comment) or from the encodings of spec/30_encoding.md R56. Every test of an instruction
is one step of a small state. The last part gives, for each statement that has hypotheses, concrete
values that meet them.
-/

namespace Sys2Proof.Tests

open Sys2Proof.Machine

/-- The next state of an outcome. -/
def stateOf : Host.Outcome State Fault Refusal → Option State
  | .next s => some s
  | .fault _ => none
  | .refused _ => none

/-- The reset state with a policy, a `pc`, an SP and listed cells. -/
def probe (p : RangePolicy) (pc sp : Byte) (cells : Memory) : State :=
  { State.reset with rangePolicy := p, pc := pc, mem := cells, regs := regsReset.set 6 sp }

/-- One step of `s`, seen through `f`. -/
def after {α : Type} (s : State) (f : State → α) : Option α := (stateOf (step s)).map f

/-- A decidable fact about the next state of an outcome. -/
theorem next_with {o : Host.Outcome State Fault Refusal} {P : State → Prop} [DecidablePred P]
    (h : (stateOf o).any (fun t => decide (P t)) = true) : ∃ t, o = .next t ∧ P t := by
  cases o with
  | next t => exact ⟨t, rfl, by simpa [stateOf] using h⟩
  | fault r => cases r
  | refused r => simp [stateOf] at h

theorem next_exists {o : Host.Outcome State Fault Refusal} (h : (stateOf o).isSome = true) :
    ∃ t, o = .next t := by
  cases o with
  | next t => exact ⟨t, rfl⟩
  | fault r => cases r
  | refused r => simp [stateOf] at h

/-! ### WellFormed -/

theorem test_wellFormed_unknown : (Instr.unknown 0x00).wellFormed = true := by decide

theorem test_wellFormed_refuses_each_opcode :
    ([0x01, 0x82, 0x47, 0xA2, 0xA0, 0x45, 0x46, 0x50, 0x11, 0xA7] : List Byte).all
      (fun op => (Instr.unknown op).wellFormed == false) = true := by decide

/-! ### Decoding: one word for each constructor, from the encodings of R56 -/

theorem test_decode_hlt : decodeTableWord 8 0b00000001 = some .hlt := by decide

theorem test_decode_ldi : decodeTableWord 24 0x088082 = some (.ldi 0x80 0x08) := by decide

theorem test_decode_prn : decodeTableWord 16 0x0547 = some (.prn 5) := by decide

theorem test_decode_mult : decodeTableWord 24 0x0201A2 = some (.mult 1 2) := by decide

theorem test_decode_add : decodeTableWord 24 0x0201A0 = some (.add 1 2) := by decide

theorem test_decode_push : decodeTableWord 16 0x0345 = some (.push 3) := by decide

theorem test_decode_pop : decodeTableWord 16 0x0446 = some (.pop 4) := by decide

theorem test_decode_call : decodeTableWord 16 0xFF50 = some (.call 0xFF) := by decide

theorem test_decode_ret : decodeTableWord 8 0b00010001 = some .ret := by decide

theorem test_decode_cmp : decodeTableWord 24 0x0201A7 = some (.cmp 1 2) := by decide

theorem test_decode_unknown : decodeTableWord 8 0xFF = some (.unknown 0xFF) := by decide

theorem test_decode_short_word_is_zero_extended : decodeTableWord 8 0x82 = some (.ldi 0 0) := by
  decide

theorem test_decode_truncated : decode [0x82, 0x00] = .error (.truncated 0x82) := by rfl

/-! ### Reset and load -/

/-- Z1. -/
theorem test_reset_registers : State.reset.regs = #v[0, 0, 0, 0, 0, 0, 0xF4, 0] := by decide

/-- Z2. -/
theorem test_load :
    (State.reset.load [0x82, 0x00, 0x08, 0x47, 0x00, 0x01]).toOption.map (·.mem) =
      some [(0, 0x82), (2, 0x08), (3, 0x47), (5, 0x01)] := by decide

/-- R139, the two renderings the source gives. -/
theorem test_renderOut : renderOut 8 = "8" ∧ renderOut 30 = "30" := by decide

/-! ### The instructions -/

/-- HL1. -/
theorem test_hlt : after (probe .fault 0 0xF4 [(0, 0x01)])
    (fun t => (t.running, t.pc, t.status)) = some (false, 0x01, .halted) := by decide

/-- HL2. -/
theorem test_hlt_at_top : after (probe .fault 0xFF 0xF4 [(0xFF, 0x01)])
    (fun t => (t.running, t.pc, t.fault)) = some (false, 0x00, none) := by decide

/-- UN1. -/
theorem test_unknown : after (probe .fault 0x10 0xF4 [])
    (fun t => (t.pc, t.events)) = some (0x11, [.unknownOpcode 0x10 0x00]) := by decide

/-- UN3. -/
theorem test_unknown_at_top : after (probe .fault 0xFF 0xF4 [])
    (fun t => (t.fault, t.events)) = some (some (.rangeFault .address 256), []) := by decide

/-- LD7. -/
theorem test_ldi_wraps_register : after (probe .wrap 0 0xF4 [(0, 0x82), (1, 0xFE), (2, 0x55)])
    (fun t => (t.sp, t.pc)) = some (0x55, 0x03) := by decide

/-- LD10. -/
theorem test_ldi_wraps_operand : after (probe .wrap 0xFE 0xF4 [(0, 0x55), (0xFE, 0x82), (0xFF, 0x03)])
    (fun t => (t.getReg 3, t.pc)) = some (0x55, 0x01) := by decide

/-- PR2. -/
theorem test_prn : after (probe .fault 0 0xF4 [(0, 0x47), (1, 0x06)])
    (fun t => (t.outputs, t.pc)) = some ([244], 0x02) := by decide

/-- PR4. -/
theorem test_prn_at_top : after (probe .fault 0xFE 0xF4 [(0xFE, 0x47)])
    (fun t => (t.fault, t.events)) = some (some (.rangeFault .address 256), []) := by decide

/-- AD1. -/
theorem test_add : after
    (((probe .fault 0 0xF4 [(0, 0xA0), (2, 0x01)]).setReg 0 200).setReg 1 100)
    (fun t => (t.getReg 0, t.fl)) = some (44, 0x00) := by decide

/-- AD6. -/
theorem test_add_bad_register : after (probe .fault 0 0xF4 [(0, 0xA0), (2, 0x08)])
    (fun t => t.fault) = some (some (.rangeFault .registerIndex 8)) := by decide

/-- MU2. -/
theorem test_mult : after
    (((probe .fault 0 0xF4 [(0, 0xA2), (2, 0x01)]).setReg 0 0xFF).setReg 1 0xFF)
    (fun t => (t.getReg 0, t.pc)) = some (0x01, 0x03) := by decide

/-- MU3. -/
theorem test_mult_square : after ((probe .fault 0 0xF4 [(0, 0xA2)]).setReg 0 16)
    (fun t => t.getReg 0) = some 0x00 := by decide

/-- CP4. -/
theorem test_cmp_unsigned : after
    (((probe .fault 0 0xF4 [(0, 0xA7), (2, 0x01)]).setReg 0 0x80).setReg 1 0x7F)
    (fun t => t.fl) = some 0x02 := by decide

/-- CP7. -/
theorem test_cmp_old_flags : after
    (((probe .fault 0 0xF4 [(0, 0xA7), (2, 0x05)]).setReg 5 0xF8).setReg 0 0x01)
    (fun t => t.fl) = some 0x04 := by decide

/-- ST2. -/
theorem test_push_sp : after (probe .fault 0 0xF4 [(0, 0x45), (1, 0x06)])
    (fun t => (t.sp, t.memRead 0xF3)) = some (0xF3, 0xF3) := by decide

/-- ST7. -/
theorem test_push_at_zero : after (probe .fault 0 0x00 [(0, 0x45)])
    (fun t => (t.fault, t.sp)) = some (some (.rangeFault .address (-1)), 0x00) := by decide

/-- ST5. -/
theorem test_pop_sp : after (probe .fault 0 0xF4 [(0, 0x46), (1, 0x06), (0xF4, 0x20)])
    (fun t => t.sp) = some 0x21 := by decide

/-- ST8. -/
theorem test_pop_at_top : after (probe .wrap 0 0xFF [(0, 0x46), (0xFF, 0x33)])
    (fun t => (t.getReg 0, t.sp)) = some (0x33, 0x00) := by decide

/-- CR2. -/
theorem test_call_sp : after (probe .fault 0 0xF4 [(0, 0x50), (1, 0x06)])
    (fun t => (t.pc, t.memRead 0xF3)) = some (0xF3, 0x02) := by decide

/-- CR4. -/
theorem test_call_at_top : after (probe .fault 0xFE 0xF4 [(0xFE, 0x50)])
    (fun t => (t.fault, t.mem)) =
      some (some (.rangeFault .address 256), [(0xFE, 0x50)]) := by decide

/-- CR5. -/
theorem test_ret : after (probe .fault 0x22 0xF3 [(0x22, 0x11), (0xF3, 0x08)])
    (fun t => (t.pc, t.sp)) = some (0x08, 0xF4) := by decide

/-- CR7. -/
theorem test_ret_at_top : after (probe .wrap 0 0xFF [(0, 0x11), (0xFF, 0x33)])
    (fun t => (t.pc, t.sp)) = some (0x33, 0x00) := by decide

/-- HL3: after a halt nothing changes. -/
theorem test_halted_idles :
    let s := { probe .fault 0 0xF4 [(0, 0x82)] with running := false }
    stateOf (step s) = some s := by decide

/-- A word placed at the reset `pc` is what the first step runs. -/
theorem test_withFetchWord :
    (State.reset.withFetchWord 24 0xC80382).fetch = .ldi 3 0xC8 := by decide

/-! ### Witnesses: values that meet the hypotheses of each statement, clause by clause -/

theorem witness_DecodeOfEncode :
    (Instr.ldi 0xFF 0xFF).wellFormed = true ∧ (Instr.unknown 0xFF).wellFormed = true := by decide

theorem witness_EncodeOfDecode :
    decode [0xA7, 0x07, 0x00, 0x11] = .ok (.cmp 7 0, [0x11]) := by rfl

theorem witness_LengthFromOpcodeAlone : decode [0x45, 0x07, 0x11] = .ok (.push 7, [0x11]) := by rfl

theorem witness_HighBitsOfOpcode : formatOf 0xA7 ≠ none ∧ formatOf 0xFF = none := by decide

theorem witness_EngineStep :
    State.reset.running = true ∧ { State.reset with running := false }.running = false := by decide

theorem witness_StepRunsDecoded :
    let s := probe .fault 0 0xF4 [(0, 0x82), (2, 0x08)]
    s.running = true ∧
      decode [s.memRead s.pc, s.memRead (s.pc + 1), s.memRead (s.pc + 2)] = .ok (.ldi 0 8, []) :=
  ⟨rfl, rfl⟩

theorem witness_PlacedWordRuns : decodeTableWord 24 0x0001A0 = some (.add 1 0) := by decide

theorem witness_FetchReadsOwnBytesOnly :
    let s := probe .fault 0 0xF4 [(0, 0x45), (1, 0x03)]
    let t := probe .wrap 0 0xF3 [(0, 0x45), (1, 0x03), (2, 0x99)]
    s.pc = t.pc ∧ ∀ k < lengthOf (s.memRead s.pc),
      s.memRead (s.pc + BitVec.ofNat 8 k) = t.memRead (s.pc + BitVec.ofNat 8 k) := by decide

theorem witness_StoredByteIsFetched :
    let s := probe .fault 0 0x04 []
    raises s (.push 0) = none ∧ raises s (.call 0) = none ∧
      (∃ t, exec (.push 0) s = .next t ∧ (t.setPc 2).mem = t.mem ∧
        (t.setPc 2).pc + BitVec.ofNat 8 1 = s.getReg 6 - 1) ∧
      ∃ t, exec (.call 0) s = .next t ∧ (t.setPc 3).mem = t.mem ∧
        (t.setPc 3).pc + BitVec.ofNat 8 0 = s.getReg 6 - 1 :=
  ⟨by decide, by decide, next_with (by decide), next_with (by decide)⟩

theorem witness_ResetState : (5 : Fin 8) ≠ 6 := by decide

theorem witness_LoadPlacesImage :
    (List.replicate 256 (0x01 : Byte)).length ≤ 256 ∧
      256 < (List.replicate 257 (0x01 : Byte)).length := by
  simp only [List.length_replicate]
  decide

theorem witness_UnknownEffect :
    let s := probe .fault 0xFE 0xF4 []
    let u := probe .fault 0xFF 0xF4 []
    (s.rangePolicy = .wrap ∨ s.pc ≠ 0xFF) ∧ u.rangePolicy = .fault ∧ u.pc = 0xFF ∧
      (probe .wrap 0xFF 0xF4 []).rangePolicy = .wrap := by decide

/-- The clauses of LDI: `pc` at 0xFC, 0xFD, 0xFE and 0xFF, register byte at 7 and 8. -/
theorem witness_LdiEffect :
    let s := fun pc => probe .fault pc 0xF4 []
    (s 0xFC).pc.toNat ≤ 0xFC ∧ (7 : Byte).toNat ≤ 7 ∧ (s 0xFC).rangePolicy = .fault ∧
      0xFE ≤ (s 0xFE).pc.toNat ∧ (s 0xFD).pc.toNat ≤ 0xFD ∧ 8 ≤ (8 : Byte).toNat ∧
      (s 0xFD).pc.toNat = 0xFD ∧ (probe .wrap 0xFF 0xF4 []).rangePolicy = .wrap := by decide

/-- The clauses of PRN: `pc` at 0xFD, 0xFE and 0xFF, register byte at 7 and 8. -/
theorem witness_PrnEffect :
    let s := fun pc => probe .fault pc 0xF4 []
    (s 0xFD).pc.toNat ≤ 0xFD ∧ (7 : Byte).toNat ≤ 7 ∧ (s 0xFD).rangePolicy = .fault ∧
      (s 0xFF).pc.toNat = 0xFF ∧ (s 0xFE).pc.toNat ≤ 0xFE ∧ 8 ≤ (8 : Byte).toNat ∧
      (s 0xFE).pc.toNat = 0xFE ∧ (probe .wrap 0xFF 0xF4 []).rangePolicy = .wrap := by decide

/-- The clauses of ADD, MULT and CMP: `pc` at 0xFC, 0xFD and 0xFE, register bytes at 7 and 8. -/
theorem witness_AddEffect_MultEffect_CmpEffect :
    let s := fun pc => probe .fault pc 0xF4 []
    (s 0xFC).pc.toNat ≤ 0xFC ∧ (7 : Byte).toNat ≤ 7 ∧ (s 0xFC).rangePolicy = .fault ∧
      0xFE ≤ (s 0xFE).pc.toNat ∧ (s 0xFD).pc.toNat ≤ 0xFD ∧ 8 ≤ (8 : Byte).toNat ∧
      (s 0xFD).pc.toNat = 0xFD ∧ (probe .wrap 0xFF 0xF4 []).rangePolicy = .wrap := by decide

theorem witness_CmpSetsExactlyOneFlag :
    raises (probe .fault 0xFC 0xF4 []) (.cmp 7 7) = none ∧
      raises (probe .wrap 0xFF 0xF4 []) (.cmp 0xFF 8) = none := by decide

/-- The clauses of PUSH and CALL: `pc` at 0xFD, 0xFE and 0xFF, register byte at 7 and 8, SP at 0x01
and 0x00. -/
theorem witness_PushEffect_CallEffect :
    let s := fun pc sp => probe .fault pc sp []
    ((s 0xFD 0x01).pc.toNat ≤ 0xFD ∧ (7 : Byte).toNat ≤ 7 ∧ (s 0xFD 0x01).getReg 6 ≠ 0x00) ∧
      (s 0xFF 0x01).pc.toNat = 0xFF ∧
      ((s 0xFE 0x01).pc.toNat ≤ 0xFE ∧ 8 ≤ (8 : Byte).toNat) ∧
      ((s 0xFE 0x00).pc.toNat ≤ 0xFE ∧ (s 0xFE 0x00).getReg 6 = 0x00) ∧
      ((s 0xFD 0x00).pc.toNat ≤ 0xFD ∧ (s 0xFD 0x00).getReg 6 = 0x00) ∧
      ((s 0xFE 0x01).pc.toNat = 0xFE ∧ (s 0xFE 0x01).getReg 6 ≠ 0x00) ∧
      (s 0xFE 0x01).rangePolicy = .fault ∧ (probe .wrap 0xFF 0 []).rangePolicy = .wrap := by decide

/-- The clauses of POP: `pc` at 0xFD, 0xFE and 0xFF, register byte at 7, 8 and 6, SP at 0xFE and
0xFF, and the popped byte 0xFF with register 6. -/
theorem witness_PopEffect :
    let s := fun pc sp => probe .fault pc sp [(0xFE, 0xFF)]
    let top := fun (u : State) (r : Byte) =>
      if namedReg r = 6 then u.memRead (u.getReg 6) else u.getReg 6
    ((s 0xFD 0xFE).pc.toNat ≤ 0xFD ∧ (7 : Byte).toNat ≤ 7 ∧ top (s 0xFD 0xFE) 7 ≠ 0xFF) ∧
      (s 0xFF 0xFE).pc.toNat = 0xFF ∧
      ((s 0xFE 0xFE).pc.toNat ≤ 0xFE ∧ 8 ≤ (8 : Byte).toNat) ∧
      ((s 0xFE 0xFF).pc.toNat ≤ 0xFE ∧ top (s 0xFE 0xFF) 7 = 0xFF) ∧
      ((s 0xFE 0xFE).pc.toNat ≤ 0xFE ∧ top (s 0xFE 0xFE) 6 = 0xFF) ∧
      ((s 0xFE 0xFE).pc.toNat = 0xFE ∧ top (s 0xFE 0xFE) 7 ≠ 0xFF) ∧
      (s 0xFE 0xFE).rangePolicy = .fault ∧ (probe .wrap 0xFF 0 []).rangePolicy = .wrap := by decide

theorem witness_RetEffect :
    (probe .fault 0xFF 0xFE []).getReg 6 ≠ 0xFF ∧ (probe .fault 0xFF 0xFF []).getReg 6 = 0xFF ∧
      (probe .fault 0xFF 0xFF []).rangePolicy = .fault ∧
      (probe .wrap 0xFF 0xFF []).rangePolicy = .wrap := by decide

theorem witness_AluTable :
    let s := probe .fault 0xFC 0xF4 []
    (0x7F : Byte).toNat < (0x80 : Byte).toNat ∧ (0x00 : Byte).toNat < (0x01 : Byte).toNat ∧
      (0xFF : Byte) = 0xFF ∧ raises s (.add 7 7) = none ∧
      raises s (.mult 7 7) = none ∧ raises s (.cmp 7 7) = none := by decide

/-- A row of R113's table for each cause: the first condition of two that hold is the one latched. -/
theorem witness_RangeFaultIsPrecise :
    raises (probe .fault 0xFF 0xF4 []) (.ldi 8 0) = some (.rangeFault .address 256) ∧
      raises (probe .fault 0xFD 0xF4 []) (.ldi 8 0) = some (.rangeFault .registerIndex 8) ∧
      raises (probe .fault 0xFE 0x00 []) (.push 0) = some (.rangeFault .address (-1)) := by decide

theorem witness_NoConditionNoFault :
    raises (probe .fault 0xFF 0xF4 []) .hlt = none ∧
      raises (probe .fault 0xFD 0xF4 []) (.call 7) = none ∧
      raises (probe .wrap 0xFF 0x00 []) (.push 0xFF) = none := by decide

theorem witness_NoUnsupportedAluOp :
    ∃ t, exec .hlt { State.reset with fault := some .unsupportedAluOp } = .next t ∧
      t.fault = some .unsupportedAluOp := next_with (by decide)

theorem witness_PolicyMattersOnlyOutOfRange :
    let s := probe .fault 0xFC 0xF4 []
    s.rangePolicy = .fault ∧ raises s (.ldi 7 1) = none ∧ ∃ t, exec (.ldi 7 1) s = .next t :=
  ⟨rfl, by decide, next_exists (by decide)⟩

/-- For RegisterFrame, MemoryFrame, ControlFrame, EventFrame and OnlyCmpSetsFlags: a PUSH that
completes and a PUSH that faults, a register it does not write and an address it does not store to. -/
theorem witness_frames :
    (∃ t, exec (.push 0) (probe .fault 0 0xF4 []) = .next t) ∧
      (∃ t, exec (.push 0) (probe .fault 0 0x00 []) = .next t) ∧
      (5 : Fin 8) ∉ writtenRegs (.push 0) ∧
      (0xF4 : Byte) ∉ storedAddrs (probe .fault 0 0xF4 []) (.push 0) :=
  ⟨next_exists (by decide), next_exists (by decide), by decide, by decide⟩

theorem witness_OnlyCmpSetsFlags :
    (∃ t, exec (.ldi 6 1) State.reset = .next t) ∧ (∀ ra rb, Instr.ldi 6 1 ≠ .cmp ra rb) ∧
      (∀ r v, Instr.ldi 6 1 = .ldi r v → namedReg r ≠ 5) ∧
      (∀ ra rb, Instr.ldi 6 1 = .add ra rb → namedReg ra ≠ 5) ∧
      (∀ ra rb, Instr.ldi 6 1 = .mult ra rb → namedReg ra ≠ 5) ∧
      (∀ r, Instr.ldi 6 1 = .pop r → namedReg r ≠ 5) := by
  refine ⟨next_exists (by decide), by simp, fun r v h => ?_, by simp, by simp, by simp⟩
  cases h
  decide

theorem witness_PcAdvance :
    let s := probe .fault 0xFC 0xF4 []
    (∀ r, Instr.add 7 7 ≠ .call r) ∧ Instr.add 7 7 ≠ .ret ∧ raises s (.add 7 7) = none ∧
      ∃ t, exec (.add 7 7) s = .next t :=
  ⟨by simp, by decide, by decide, next_exists (by decide)⟩

theorem witness_ControlStateNotRead :
    let s := State.reset
    let s' := { State.reset with running := false, fault := some above, events := [.out 1] }
    s'.regs = s.regs ∧ s'.pc = s.pc ∧ s'.mem = s.mem ∧ s'.rangePolicy = s.rangePolicy ∧
      (∃ t, exec (.prn 6) s = .next t) ∧ ∃ t', exec (.prn 6) s' = .next t' :=
  ⟨rfl, rfl, rfl, rfl, next_exists (by decide), next_exists (by decide)⟩

/-- A running state of the invariant, with a HLT at `pc`, listed cells and logged events. -/
def invProbe : State :=
  { probe .fault 0x10 0x80 [(0x10, 0x01), (0x80, 0xFF)] with
    events := [.out 8, .unknownOpcode 0x03 0x02] }

/-- For StepKeepsInv, SuccessfulEndIsHlt and TerminationPaths. -/
theorem witness_invariant :
    invProbe.Inv ∧ invProbe.running = true ∧
      ∃ t, step invProbe = .next t ∧ t.running = false := by
  refine ⟨⟨by decide, fun _ => rfl, fun c h => ?_, fun e h => ?_⟩, rfl, next_with (by decide)⟩
  · cases h
  · simp only [invProbe, List.mem_cons, List.not_mem_nil, or_false] at h
    rcases h with rfl | rfl
    · trivial
    · show formatOf 0x02 = none
      decide

/-- For StatusOfState and CauseCodes: a halted and a faulted state of the invariant (invProbe is a
running one), and a state for each cause. -/
theorem witness_StatusOfState_CauseCodes :
    ({ State.reset with running := false } : State).Inv ∧
      (State.reset.latched (badReg 8)).Inv ∧ (State.reset.latched above).Inv ∧
      State.reset.fault = none ∧
      (State.reset.latched (badReg 8)).fault = some (.rangeFault .registerIndex 8) ∧
      (State.reset.latched above).fault = some (.rangeFault .address 256) ∧
      (State.reset.latched .unsupportedAluOp).fault = some .unsupportedAluOp := by
  refine ⟨⟨Memory.wf_nil, fun h => ?_, fun c h => ?_, fun e h => ?_⟩,
    ⟨Memory.wf_nil, fun h => ?_, fun c h => ?_, fun e h => ?_⟩,
    ⟨Memory.wf_nil, fun h => ?_, fun c h => ?_, fun e h => ?_⟩, rfl, rfl, rfl, rfl⟩
  case refine_5 | refine_8 =>
    cases h
    exact ⟨by simp [FaultCause.legal, above, badReg], rfl⟩
  all_goals cases h

theorem witness_StoppedForever : { State.reset with running := false }.running = false := rfl

theorem witness_TerminationPaths_by_fault :
    let s := probe .fault 0xFF 0xF4 []
    s.running = true ∧ ∃ t, step s = .next t ∧ t.running = false := ⟨rfl, next_with (by decide)⟩

theorem witness_SeparateChannels :
    raises (probe .fault 0xFD 0xF4 []) (.prn 7) = none ∧
      raises (probe .fault 0xFE 0xF4 []) (.unknown 0x00) = none := by decide

theorem witness_LdiThenHlt :
    let s := probe .fault 0xFC 0xF4 [(0xFC, 0x82), (0xFD, 0x03), (0xFE, 0xC8), (0xFF, 0x01)]
    s.running = true ∧ raises s (.ldi 0x03 0xC8) = none ∧ s.memRead s.pc = 0x82 ∧
      s.memRead (s.pc + 1) = 0x03 ∧ s.memRead (s.pc + 2) = 0xC8 ∧
      s.memRead (s.pc + 3) = 0x01 := by decide

/-- For PushPopRestores and PushRetJumps. -/
theorem witness_PushPopRestores_PushRetJumps :
    let s := probe .fault 0x00 0xF4 []
    namedReg 0 ≠ 6 ∧ namedReg 1 ≠ 6 ∧ raises s (.push 0) = none ∧
      ∃ t, exec (.push 0) s = .next t ∧ raises t (.pop 1) = none :=
  ⟨by decide, by decide, by decide, next_with (by decide)⟩

theorem witness_CallRetReturns :
    let s := probe .fault 0xFD 0x01 []
    raises s (.call 6) = none ∧ s.rangePolicy = .fault ∧
      ∃ t, exec (.call 6) s = .next t ∧ t.getReg 6 = t.getReg 6 ∧ raises t .ret = none :=
  ⟨by decide, rfl, next_with (by decide)⟩

end Sys2Proof.Tests
end

/-!
The next state of every instruction, said once. `guarded` is the shape of a pseudocode that makes a
list of R113's checks and then answers a value; each shared operation has that shape with its own
checks, sequencing joins the lists, and so each meaning has the shape with its whole row of R113's
table and `State.completed` as the value (`exec_eq`).
-/

namespace Sys2Proof.Machine

/-! ### Reading R113's table -/

theorem firstOf_cons_none {b : Bool} {c : FaultCause} {rest : List (Bool × FaultCause)} :
    firstOf ((b, c) :: rest) = none ↔ b = false ∧ firstOf rest = none := by
  cases b <;> simp [firstOf]

theorem firstOf_append (l m : List (Bool × FaultCause)) :
    firstOf (l ++ m) = (firstOf l).or (firstOf m) := by
  induction l with
  | nil => simp [firstOf]
  | cons bc l ih => cases h : bc.1 <;> simp [firstOf, h, ih]

/-- No check of the list raises: under `wrap` none can (R5), under `fault` no condition holds. -/
def Passed (p : RangePolicy) (l : List (Bool × FaultCause)) : Prop :=
  p = .wrap ∨ firstOf l = none

theorem passed_cons {p : RangePolicy} {b : Bool} {c : FaultCause} {l : List (Bool × FaultCause)} :
    Passed p ((b, c) :: l) ↔ (p = .wrap ∨ b = false) ∧ Passed p l := by
  rw [Passed, Passed, firstOf_cons_none, or_and_left]

theorem raises_none {s : State} {i : Instr} :
    raises s i = none ↔ Passed s.rangePolicy (rangeConditions s i) := by
  cases h : s.rangePolicy <;> simp [raises, Passed, h]

/-- After check (1) of R75 `pc + 1` is an address. -/
theorem pc_le_of_passed_one {p : RangePolicy} {pc : Byte} {c : FaultCause}
    {l : List (Bool × FaultCause)} (h : Passed p ((pc == 0xFF, c) :: l)) :
    p = .wrap ∨ pc.toNat ≤ 0xFE := by
  refine (passed_cons.mp h).1.imp_right fun hpc => ?_
  have hne : pc ≠ 0xFF := by simpa using hpc
  bv_omega

/-- After checks (1) and (2) of R75 `pc + 2` is an address. -/
theorem pc_le_of_passed_two {p : RangePolicy} {pc : Byte} {c d : FaultCause}
    {l : List (Bool × FaultCause)} (h : Passed p ((pc == 0xFF, c) :: (pc == 0xFE, d) :: l)) :
    p = .wrap ∨ pc.toNat ≤ 0xFD := by
  rcases pc_le_of_passed_one h with hw | hle
  · exact .inl hw
  · refine (passed_cons.mp (passed_cons.mp h).2).1.imp_right fun hpc => ?_
    have hne : pc ≠ 0xFE := by simpa using hpc
    bv_omega

/-! ### Checks, then a value -/

/-- The value `a`, unless under `fault` a condition of the list holds: then its first cause. -/
def guarded {α : Type} (p : RangePolicy) (l : List (Bool × FaultCause)) (a : α) :
    Except FaultCause α :=
  match p with
  | .wrap => .ok a
  | .fault =>
    match firstOf l with
    | none => .ok a
    | some c => .error c

theorem guarded_of_passed {α : Type} {p : RangePolicy} {l : List (Bool × FaultCause)}
    (h : Passed p l) (a : α) : guarded p l a = .ok a := by
  cases p <;> simp_all [Passed, guarded]

theorem guarded_of_raises {α : Type} {s : State} {i : Instr} {c : FaultCause}
    (h : raises s i = some c) (a : α) :
    guarded s.rangePolicy (rangeConditions s i) a = .error c := by
  cases hp : s.rangePolicy <;> simp_all [raises, guarded]

/-- Sequencing appends the checks; the later ones may assume that the earlier ones passed. -/
theorem guarded_bind {α β : Type} {p : RangePolicy} {l m : List (Bool × FaultCause)} {a : α} {b : β}
    {f : α → Except FaultCause β} (h : Passed p l → f a = guarded p m b) :
    (guarded p l a >>= f) = guarded p (l ++ m) b := by
  cases p with
  | wrap => exact h (.inl rfl)
  | fault =>
    cases hl : firstOf l with
    | none => simpa [guarded, firstOf_append, hl, bind, Except.bind] using h (.inr hl)
    | some c => simp [guarded, firstOf_append, hl, bind, Except.bind]

theorem guarded_map {α β : Type} (p : RangePolicy) (l : List (Bool × FaultCause)) (a : α)
    (f : α → β) : (guarded p l a >>= fun x => pure (f x)) = guarded p l (f a) := by
  have h := guarded_bind (l := l) (m := []) (a := a) (f := fun x => pure (f x))
    fun _ => (guarded_of_passed (p := p) (.inr rfl) (f a)).symm
  rwa [List.append_nil] at h

theorem guarded_head_congr {α : Type} {p : RangePolicy} {b b' : Bool} {c : FaultCause}
    {l : List (Bool × FaultCause)} {a : α} (h : p = .wrap ∨ b = b') :
    guarded p ((b, c) :: l) a = guarded p ((b', c) :: l) a := by
  rcases h with rfl | rfl <;> rfl

/-- A computation with one check: what it is where the check passes, and where it raises. -/
theorem eq_guarded_one {α : Type} {p : RangePolicy} {b : Bool} {c : FaultCause} {a : α}
    {x : Except FaultCause α} (hok : p = .wrap ∨ b = false → x = .ok a)
    (herr : p = .fault → b = true → x = .error c) : x = guarded p [(b, c)] a := by
  cases p with
  | wrap => exact hok (.inl rfl)
  | fault =>
    cases b with
    | false => exact hok (.inr rfl)
    | true => exact herr rfl rfl

/-! ### The shared operations in that shape -/

/-- AddrAdd of a natural `k` where the operand is at most `v`, the one value whose sum is 256. -/
theorem addrAdd_eq_guarded {p : RangePolicy} {a v : Byte} {k : Nat} (hv : v.toNat + k = 256)
    (ha : p = .wrap ∨ a.toNat ≤ v.toNat) :
    addrAdd p a k = guarded p [(a == v, above)] (a + BitVec.ofNat 8 k) := by
  refine eq_guarded_one (fun h => addrAdd_ok.mpr ⟨?_, (ofInt_toNat_add a k).symm⟩) (fun hp h => ?_)
  · rcases ha with hw | hle
    · exact .inl hw
    · refine h.imp_right fun hne => ?_
      have : a ≠ v := by simpa using hne
      have := BitVec.toNat_ne.mp this
      omega
  · obtain rfl : a = v := by simpa using h
    refine addrAdd_error.mpr ⟨hp, by omega, ?_⟩
    rw [above]
    congr 1
    omega

theorem addrAdd_one_eq (p : RangePolicy) (a : Byte) :
    addrAdd p a 1 = guarded p [(a == 0xFF, above)] (a + 1) :=
  addrAdd_eq_guarded (k := 1) rfl (.inr (Nat.le_of_lt_succ a.isLt))

theorem addrAdd_two_eq {p : RangePolicy} {a : Byte} (h : p = .wrap ∨ a.toNat ≤ 0xFE) :
    addrAdd p a 2 = guarded p [(a == 0xFE, above)] (a + 2) :=
  addrAdd_eq_guarded (k := 2) rfl h

theorem addrAdd_three_eq {p : RangePolicy} {a : Byte} (h : p = .wrap ∨ a.toNat ≤ 0xFD) :
    addrAdd p a 3 = guarded p [(a == 0xFD, above)] (a + 3) :=
  addrAdd_eq_guarded (k := 3) rfl h

theorem addrAdd_pred_eq (p : RangePolicy) (a : Byte) :
    addrAdd p a (-1) = guarded p [(a == 0x00, below)] (a - 1) := by
  refine eq_guarded_one (fun h => addrAdd_ok.mpr ⟨?_, (ofInt_toNat_pred a).symm⟩) (fun hp h => ?_)
  · refine h.imp_right fun hne => ?_
    have : a ≠ 0x00 := by simpa using hne
    bv_omega
  · obtain rfl : a = 0x00 := by simpa using h
    exact addrAdd_error.mpr ⟨hp, by decide, rfl⟩

theorem regIndex_eq_guarded (p : RangePolicy) (b : Byte) :
    regIndex p b = guarded p [(8 ≤ b.toNat, badReg b)] (namedReg b) := by
  refine eq_guarded_one (fun h => regIndex_ok.mpr ⟨?_, rfl⟩) (fun hp h => ?_)
  · refine h.imp_right fun hlt => ?_
    have : ¬8 ≤ b.toNat := by simpa using hlt
    omega
  · exact regIndex_error.mpr ⟨hp, Nat.lt_of_succ_le (by simpa using h), rfl⟩

/-- Check (1) of R75. -/
theorem State.operandAddrs_one_eq (s : State) :
    s.operandAddrs 1 = guarded s.rangePolicy [(s.pc == 0xFF, above)] () := by
  refine eq_guarded_one (fun h => operandAddrs_one_ok.mpr ?_) (fun hp h => ?_)
  · exact pc_le_of_passed_one (c := above) (l := []) (passed_cons.mpr ⟨h, .inr rfl⟩)
  · obtain h : s.pc = 0xFF := by simpa using h
    exact operandAddrs_one_error.mpr ⟨hp, by rw [h]; rfl, rfl⟩

/-- Checks (1) and (2) of R75. -/
theorem State.operandAddrs_two_eq (s : State) :
    s.operandAddrs 2 = guarded s.rangePolicy [(s.pc == 0xFF, above), (s.pc == 0xFE, above)] () := by
  rw [operandAddrs, operandAddrs_one_eq]
  refine guarded_bind fun h => ?_
  rw [show ((1 : Nat) : Int) + 1 = 2 from rfl, addrAdd_two_eq (pc_le_of_passed_one h)]
  exact guarded_map _ _ _ _

theorem State.operandsF1_eq (s : State) (r : Byte) :
    s.operandsF1 r = guarded s.rangePolicy
      [(s.pc == 0xFF, above), (8 ≤ r.toNat, badReg r)] (namedReg r) := by
  rw [operandsF1, operandAddrs_one_eq]
  exact guarded_bind fun _ => regIndex_eq_guarded _ r

theorem State.operandsF2I_eq (s : State) (r : Byte) :
    s.operandsF2I r = guarded s.rangePolicy
      [(s.pc == 0xFF, above), (s.pc == 0xFE, above), (8 ≤ r.toNat, badReg r)] (namedReg r) := by
  rw [operandsF2I, operandAddrs_two_eq]
  exact guarded_bind fun _ => regIndex_eq_guarded _ r

theorem State.operandsF2R_eq (s : State) (ra rb : Byte) :
    s.operandsF2R ra rb = guarded s.rangePolicy
      [(s.pc == 0xFF, above), (s.pc == 0xFE, above), (8 ≤ ra.toNat, badReg ra),
        (8 ≤ rb.toNat, badReg rb)] (namedReg ra, namedReg rb) := by
  rw [operandsF2R, operandAddrs_two_eq, regIndex_eq_guarded, regIndex_eq_guarded]
  refine guarded_bind fun _ => guarded_bind (l := [_]) (m := [_]) fun _ => ?_
  exact guarded_map _ _ _ _

/-- The advance by 2, where `pc + 1` is an address. -/
theorem State.advance_two_eq {s : State} (h : s.rangePolicy = .wrap ∨ s.pc.toNat ≤ 0xFE) :
    s.advance 2 = guarded s.rangePolicy [(s.pc == 0xFE, above)] (s.setPc (s.pc + 2)) := by
  rw [advance, addrAdd_two_eq h]
  exact guarded_map _ _ _ _

/-- The advance by 3, where `pc + 2` is an address. -/
theorem State.advance_three_eq {s : State} (h : s.rangePolicy = .wrap ∨ s.pc.toNat ≤ 0xFD) :
    s.advance 3 = guarded s.rangePolicy [(s.pc == 0xFD, above)] (s.setPc (s.pc + 3)) := by
  rw [advance, addrAdd_three_eq h]
  exact guarded_map _ _ _ _

theorem State.decSp_eq (s : State) :
    s.moveSp (-1) =
      guarded s.rangePolicy [(s.sp == 0x00, below)] (s.setReg spIndex (s.sp - 1)) := by
  rw [moveSp, addrAdd_pred_eq]
  exact guarded_map _ _ _ _

theorem State.incSp_eq (s : State) :
    s.moveSp 1 = guarded s.rangePolicy [(s.sp == 0xFF, above)] (s.setReg spIndex (s.sp + 1)) := by
  rw [moveSp, addrAdd_one_eq]
  exact guarded_map _ _ _ _

/-! ### The next state -/

/-- The effect of ADD, MULT and CMP where nothing is raised (R85): the ALU's output of both old
values in the operation's target, and `pc` moved by 3. -/
def State.aluCompleted (s : State) (op : AluOp) (ra rb : Byte) : State :=
  (s.setReg (aluTarget op (namedReg ra))
    (aluApply op (s.getReg (namedReg ra)) (s.getReg (namedReg rb)))).setPc (s.pc + 3)

/-- The effect of an instruction where no condition of R113's table holds: its pseudocode with every
address modulo 256 and every register index modulo 8, so that nothing in it can raise. -/
def State.completed (s : State) : Instr → State
  | .hlt => { s with running := false, pc := s.pc + 1 }
  | .ldi r v => (s.setReg (namedReg r) v).setPc (s.pc + 3)
  | .prn r => (s.emit (.out (s.getReg (namedReg r)))).setPc (s.pc + 2)
  | .mult ra rb => s.aluCompleted .mult ra rb
  | .add ra rb => s.aluCompleted .add ra rb
  | .push r =>
    let u := s.setReg spIndex (s.sp - 1)
    (u.storeTop (u.getReg (namedReg r))).setPc (s.pc + 2)
  | .pop r =>
    let u := s.setReg (namedReg r) s.loadTop
    (u.setReg spIndex (u.sp + 1)).setPc (s.pc + 2)
  | .call r =>
    let u := (s.setReg spIndex (s.sp - 1)).storeTop (s.pc + 2)
    u.setPc (u.getReg (namedReg r))
  | .ret => (s.setPc s.loadTop).setReg spIndex (s.sp + 1)
  | .cmp ra rb => s.aluCompleted .cmp ra rb
  | .unknown op => (s.emit (.unknownOpcode s.pc op)).setPc (s.pc + 1)

/-- The next state of an instruction (R112, R113): the fatal-fault action with the cause that the
table gives, or else the instruction's effect. -/
def State.nextState (s : State) (i : Instr) : State :=
  match raises s i with
  | none => s.completed i
  | some c => s.raise c

theorem State.nextState_of_none {s : State} {i : Instr} (h : raises s i = none) :
    s.nextState i = s.completed i := by rw [nextState, h]

theorem State.nextState_of_some {s : State} {i : Instr} {c : FaultCause} (h : raises s i = some c) :
    s.nextState i = s.raise c := by rw [nextState, h]

/-- A pseudocode that makes the checks of the instruction's row and then has its effect ends in its
next state. -/
theorem settle_guarded (s : State) (i : Instr) :
    settle s (guarded s.rangePolicy (rangeConditions s i) (s.completed i)) =
      .next (s.nextState i) := by
  cases hr : raises s i with
  | none => rw [guarded_of_passed (raises_none.mp hr), State.nextState_of_none hr, settle]
  | some c => rw [guarded_of_raises hr, State.nextState_of_some hr, settle]

/-! ### Each meaning answers that state -/

theorem execLdi_eq (s : State) (r v : Byte) :
    execLdi r v s = .next (s.nextState (.ldi r v)) := by
  rw [execLdi, State.operandsF2I_eq, ← settle_guarded]
  exact congrArg _ (guarded_bind fun h => State.advance_three_eq (pc_le_of_passed_two h))

theorem execPrn_eq (s : State) (r : Byte) : execPrn r s = .next (s.nextState (.prn r)) := by
  rw [execPrn, State.operandsF1_eq, ← settle_guarded]
  refine congrArg _ (guarded_bind (m := [(s.pc == 0xFE, above)]) fun h => ?_)
  rw [addrAdd_two_eq (pc_le_of_passed_one h)]
  exact guarded_map _ _ _ _

theorem State.aluInstr_eq (s : State) (op : AluOp) (ra rb : Byte) :
    s.aluInstr op ra rb = guarded s.rangePolicy
      [(s.pc == 0xFF, above), (s.pc == 0xFE, above), (8 ≤ ra.toNat, badReg ra),
        (8 ≤ rb.toNat, badReg rb), (s.pc == 0xFD, above)] (s.aluCompleted op ra rb) := by
  rw [aluInstr, operandsF2R_eq]
  exact guarded_bind fun h => advance_three_eq (pc_le_of_passed_two h)

theorem execPush_eq (s : State) (r : Byte) : execPush r s = .next (s.nextState (.push r)) := by
  rw [execPush, State.operandsF1_eq, State.decSp_eq, ← settle_guarded]
  exact congrArg _ (guarded_bind fun h => guarded_bind fun _ =>
    State.advance_two_eq (pc_le_of_passed_one h))

theorem execCall_eq (s : State) (r : Byte) : execCall r s = .next (s.nextState (.call r)) := by
  rw [execCall, State.operandsF1_eq, State.decSp_eq, ← settle_guarded]
  refine congrArg _ (guarded_bind fun h => ?_)
  rw [addrAdd_two_eq (pc_le_of_passed_one h)]
  exact guarded_bind fun _ => guarded_map _ _ _ _

theorem execRet_eq (s : State) : execRet s = .next (s.nextState .ret) := by
  rw [execRet, State.incSp_eq, ← settle_guarded]
  rfl

theorem execUnknown_eq (s : State) (op : Byte) :
    execUnknown op s = .next (s.nextState (.unknown op)) := by
  rw [execUnknown, addrAdd_one_eq, ← settle_guarded]
  exact congrArg _ (guarded_map _ _ _ _)

theorem namedReg_eq_six {r : Byte} (h : r.toNat ≤ 7) : namedReg r = 6 ↔ r = 6 := by
  have hval : (namedReg r).val = r.toNat := Nat.mod_eq_of_lt (Nat.lt_succ_of_le h)
  rw [Fin.ext_iff, hval, BitVec.toNat_eq]
  rfl

/-- R113's condition on POP's SP is that the SP after the load is 0xFF: the loaded byte where the
operand is register 6. -/
theorem popCondition_eq (s : State) {r : Byte} (h : r.toNat ≤ 7) :
    (if r == 6 then s.memRead (s.getReg 6) == 0xFF else s.getReg 6 == 0xFF) =
      ((s.setReg (namedReg r) s.loadTop).sp == 0xFF) := by
  by_cases hr : r = 6
  · rw [if_pos (by simpa using hr), (namedReg_eq_six h).mpr hr, State.sp, spIndex,
      State.getReg_setReg_self]
    rfl
  · have hne : (6 : Fin 8) ≠ namedReg r := fun h6 => hr ((namedReg_eq_six h).mp h6.symm)
    rw [if_neg (by simpa using hr), State.sp, spIndex, State.getReg_setReg_ne s _ hne]

theorem execPop_eq (s : State) (r : Byte) : execPop r s = .next (s.nextState (.pop r)) := by
  rw [execPop, State.operandsF1_eq, ← settle_guarded]
  refine congrArg _ (guarded_bind fun h => ?_)
  have hr : s.rangePolicy = .wrap ∨ r.toNat ≤ 7 :=
    (passed_cons.mp (passed_cons.mp h).2).1.imp_right fun hr => by simpa [Nat.lt_succ_iff] using hr
  refine Eq.trans ?_ (guarded_head_congr (hr.imp_right fun hr => (popCondition_eq s hr).symm))
  rw [State.incSp_eq]
  exact guarded_bind fun _ => State.advance_two_eq (pc_le_of_passed_one h)

theorem exec_eq (i : Instr) (s : State) : exec i s = .next (s.nextState i) := by
  cases i with
  | hlt => rw [State.nextState_of_none (raises_none.mpr (.inr rfl))]; rfl
  | ldi r v => exact execLdi_eq s r v
  | prn r => exact execPrn_eq s r
  | mult ra rb => rw [exec, execMult, State.aluInstr_eq]; exact settle_guarded s (.mult ra rb)
  | add ra rb => rw [exec, execAdd, State.aluInstr_eq]; exact settle_guarded s (.add ra rb)
  | push r => exact execPush_eq s r
  | pop r => exact execPop_eq s r
  | call r => exact execCall_eq s r
  | ret => exact execRet_eq s
  | cmp ra rb => rw [exec, execCmp, State.aluInstr_eq]; exact settle_guarded s (.cmp ra rb)
  | unknown op => exact execUnknown_eq s op

/-! ### What becomes of the control fields -/

@[simp] theorem State.completed_rangePolicy (s : State) (i : Instr) :
    (s.completed i).rangePolicy = s.rangePolicy := by cases i <;> rfl

@[simp] theorem State.completed_fault (s : State) (i : Instr) : (s.completed i).fault = s.fault := by
  cases i <;> rfl

theorem State.completed_running (s : State) (i : Instr) :
    (s.completed i).running = if i = .hlt then false else s.running := by cases i <;> rfl

/-- The effect does not depend on the policy. -/
theorem State.completed_withPolicy (s : State) (i : Instr) (p : RangePolicy) :
    { s with rangePolicy := p }.completed i = { s.completed i with rangePolicy := p } := by
  cases i <;> rfl

/-! ### The obligations -/

/-- Settles O31: without a raised fault both policies answer `State.completed`, which does not read
the policy. -/
theorem policyMattersOnlyOutOfRange : Obligations.PolicyMattersOnlyOutOfRange := by
  unfold Obligations.PolicyMattersOnlyOutOfRange
  intro s t i _ hn ht
  obtain rfl : s.completed i = t := by simpa [exec_eq, State.nextState_of_none hn] using ht
  rw [exec_eq, State.nextState_of_none rfl, State.completed_withPolicy]

/-- Settles O34: the next state is `State.completed` or the fatal-fault action. -/
theorem controlFrame : Obligations.ControlFrame := by
  unfold Obligations.ControlFrame
  intro s t i ht
  obtain rfl : s.nextState i = t := by simpa [exec_eq] using ht
  cases hr : raises s i with
  | none =>
    rw [State.nextState_of_none hr]
    exact ⟨s.completed_rangePolicy i, .inl ⟨rfl, s.completed_fault i, s.completed_running i⟩⟩
  | some c =>
    rw [State.nextState_of_some hr]
    exact ⟨rfl, .inr ⟨c, rfl, rfl, rfl, rfl⟩⟩

/-- Settles O39: a stopped engine answers its own state, a running one the next state of what it
fetched. -/
theorem everyStepGoesOn : Obligations.EveryStepGoesOn := by
  unfold Obligations.EveryStepGoesOn
  intro s
  by_cases hs : s.running = true
  · exact ⟨_, (step_of_running hs).trans (exec_eq _ s)⟩
  · exact ⟨s, by rw [step, if_neg hs]⟩

end Sys2Proof.Machine

/-!
The state: what reset leaves, what the effect of an instruction leaves unchanged, what it does not
read, and the invariant of every step. Each statement about `exec` is read off `exec_cases`: the next
state is `State.completed` or the fatal-fault action.
-/

namespace Sys2Proof.Machine

/-! ### The two outcomes of an instruction, and the step -/

/-- An instruction completes, or takes the fatal fault that R113's table gives (R112). -/
theorem exec_cases {s t : State} {i : Instr} (h : exec i s = .next t) :
    (raises s i = none ∧ t = s.completed i) ∨ ∃ c, raises s i = some c ∧ t = s.raise c := by
  obtain rfl : s.nextState i = t := by simpa [exec_eq] using h
  cases hr : raises s i with
  | none => exact .inl ⟨rfl, State.nextState_of_none hr⟩
  | some c => exact .inr ⟨c, rfl, State.nextState_of_some hr⟩

theorem step_of_stopped {s : State} (h : s.running = false) : step s = .next s := by
  simp [step, h]

theorem run_succ_of_next {M : Host.Core} {s s' : M.State} (h : M.step s = .next s') (k : Nat) :
    M.run (k + 1) s = M.run k s' := by
  rw [Host.Core.run, h]

/-! ### What reset leaves -/

theorem State.reset_getReg (j : Fin 8) : State.reset.getReg j = if j = 6 then 0xF4 else 0x00 := by
  revert j
  decide

theorem State.reset_memRead (a : Byte) : State.reset.memRead a = 0x00 := rfl

theorem State.hostReset_getReg (s : State) (j : Fin 8) :
    s.hostReset.getReg j = State.reset.getReg j := rfl

theorem State.hostReset_memRead (s : State) (a : Byte) :
    s.hostReset.memRead a = State.reset.memRead a := rfl

/-! ### What the effect of an instruction leaves unchanged -/

theorem State.aluCompleted_getReg_ne (s : State) {op : AluOp} {ra : Byte} (rb : Byte) {j : Fin 8}
    (h : j ≠ aluTarget op (namedReg ra)) : (s.aluCompleted op ra rb).getReg j = s.getReg j :=
  s.getReg_setReg_ne _ h

/-- R23: the effect of an instruction writes only registers that the table lists. -/
theorem State.completed_getReg (s : State) {i : Instr} {j : Fin 8} (h : j ∉ writtenRegs i) :
    (s.completed i).getReg j = s.getReg j := by
  cases i with
  | hlt | prn _ | unknown _ => rfl
  | ldi r v => exact s.getReg_setReg_ne v (List.ne_of_not_mem_cons h)
  | mult ra rb | add ra rb | cmp ra rb =>
    exact s.aluCompleted_getReg_ne rb (List.ne_of_not_mem_cons h)
  | push r | call r | ret => exact s.getReg_setReg_ne _ (List.ne_of_not_mem_cons h)
  | pop r =>
    have hsp : j ≠ spIndex := List.ne_of_not_mem_cons (List.not_mem_of_not_mem_cons h)
    exact (State.getReg_setReg_ne _ _ hsp).trans
      (s.getReg_setReg_ne _ (List.ne_of_not_mem_cons h))

/-- R13: every effect but those of CALL and RET moves `pc` by the instruction's length. -/
theorem State.completed_pc (s : State) {i : Instr} (hcall : ∀ r, i ≠ .call r) (hret : i ≠ .ret) :
    (s.completed i).pc = s.pc + BitVec.ofNat 8 (encode i).length := by
  cases i with
  | call r => exact absurd rfl (hcall r)
  | ret => exact absurd rfl hret
  | _ => rfl

/-! ### The events of an instruction -/

/-- The events that the effect of an instruction appends to the log (R138). -/
def State.emitted (s : State) : Instr → List Event
  | .prn r => [.out (s.getReg (namedReg r))]
  | .unknown op => [.unknownOpcode s.pc op]
  | _ => []

theorem State.completed_events (s : State) (i : Instr) :
    (s.completed i).events = s.events ++ s.emitted i := by
  cases i with
  | prn _ | unknown _ => rfl
  | _ => exact (List.append_nil _).symm

/-- A report of a well-formed instruction names an opcode outside the table (R58). -/
theorem State.emitted_legal (s : State) {i : Instr} (hi : i.wellFormed = true) {e : Event}
    (he : e ∈ s.emitted i) : e.legal := by
  cases i with
  | prn r =>
    obtain rfl := List.mem_singleton.mp he
    trivial
  | unknown op =>
    obtain rfl := List.mem_singleton.mp he
    exact Option.isNone_iff_eq_none.mp hi
  | _ => exact absurd he List.not_mem_nil

/-! ### The control fields are not read -/

/-- The state with other control fields: `running`, the fault latch and the event log. -/
def State.withControl (s : State) (b : Bool) (f : Option FaultCause) (es : List Event) : State :=
  { s with running := b, fault := f, events := es }

/-- Two states that agree on everything else differ in the control fields only. -/
theorem State.eq_withControl {s s' : State} (hregs : s'.regs = s.regs) (hpc : s'.pc = s.pc)
    (hmem : s'.mem = s.mem) (hp : s'.rangePolicy = s.rangePolicy) :
    s' = s.withControl s'.running s'.fault s'.events := by
  rw [withControl, ← hregs, ← hpc, ← hmem, ← hp]

theorem raises_withControl (s : State) (i : Instr) (b : Bool) (f : Option FaultCause)
    (es : List Event) : raises (s.withControl b f es) i = raises s i := by
  have hrow : rangeConditions (s.withControl b f es) i = rangeConditions s i := by cases i <;> rfl
  rw [raises, hrow, raises]
  rfl

/-- The effect of an instruction carries the latch along, appends the same events to any log, and
keeps `running` unless it is HLT. -/
theorem State.completed_withControl (s : State) (i : Instr) (b : Bool) (f : Option FaultCause)
    (es : List Event) :
    (s.withControl b f es).completed i =
      (s.completed i).withControl (if i = .hlt then false else b) f (es ++ s.emitted i) := by
  cases i with
  | prn _ | unknown _ => rfl
  | _ =>
    show _ = State.withControl _ _ _ (es ++ [])
    rw [List.append_nil]
    rfl

/-! ### The causes of R113's table -/

theorem above_legal : above.legal := .inr rfl

theorem below_legal : below.legal := .inl rfl

theorem badReg_legal {b : Byte} (h : 8 ≤ b.toNat) : (badReg b).legal := by
  have := b.isLt
  show (8 : Int) ≤ b.toNat ∧ (b.toNat : Int) ≤ 255
  omega

/-- Every condition of the table that holds has a legal cause. -/
theorem rangeConditions_legal (s : State) (i : Instr) :
    ∀ bc ∈ rangeConditions s i, bc.1 = true → bc.2.legal := by
  cases i <;> simp +contextual [rangeConditions, above_legal, below_legal, badReg_legal]

theorem mem_of_firstOf {l : List (Bool × FaultCause)} {c : FaultCause} (h : firstOf l = some c) :
    (true, c) ∈ l := by
  induction l with
  | nil => cases h
  | cons bc l ih =>
    obtain ⟨b, d⟩ := bc
    cases b with
    | true =>
      obtain rfl : d = c := by simpa [firstOf] using h
      exact List.mem_cons_self
    | false => exact List.mem_cons_of_mem _ (ih h)

/-- What an instruction raises is a cause that R113 allows, and under `wrap` it raises nothing. -/
theorem raises_legal {s : State} {i : Instr} {c : FaultCause} (h : raises s i = some c) :
    c.legal ∧ s.rangePolicy = .fault := by
  cases hp : s.rangePolicy with
  | wrap => simp [raises, hp] at h
  | fault =>
    have hf : firstOf (rangeConditions s i) = some c := by simpa [raises, hp] using h
    exact ⟨rangeConditions_legal s i _ (mem_of_firstOf hf) rfl, rfl⟩

/-! ### The invariant -/

theorem State.completed_wf {s : State} (i : Instr) (h : s.mem.wf) : (s.completed i).mem.wf := by
  cases i with
  | push r => exact (s.setReg spIndex (s.sp - 1)).memWrite_wf _ _ h
  | call r => exact (s.setReg spIndex (s.sp - 1)).memWrite_wf _ _ h
  | _ => exact h

theorem State.Inv.completed {s : State} (h : s.Inv) {i : Instr} (hi : i.wellFormed = true) :
    (s.completed i).Inv where
  memory := State.completed_wf i h.memory
  status := by
    rw [State.completed_running, State.completed_fault]
    split
    · exact nofun
    · exact h.status
  latch := by
    rw [State.completed_fault, State.completed_rangePolicy]
    exact h.latch
  log := by
    rw [State.completed_events]
    exact fun e he => (List.mem_append.mp he).elim (h.log e) (s.emitted_legal hi)

theorem State.Inv.raise {s : State} (h : s.Inv) {i : Instr} {c : FaultCause}
    (hr : raises s i = some c) : (s.raise c).Inv where
  memory := h.memory
  status := nofun
  latch := by
    rintro _ ⟨⟩
    exact raises_legal hr
  log := h.log

/-- A well-formed instruction keeps the invariant, whether it completes or faults. -/
theorem State.Inv.exec {s t : State} (h : s.Inv) {i : Instr} (hi : i.wellFormed = true)
    (ht : exec i s = .next t) : t.Inv := by
  rcases exec_cases ht with ⟨-, rfl⟩ | ⟨c, hr, rfl⟩
  · exact h.completed hi
  · exact h.raise hr

/-! ### The obligations -/

/-- Settles O40: a stopped engine keeps its state, and the instruction that a running one fetched is
well formed. -/
theorem stepKeepsInv : Obligations.StepKeepsInv := by
  unfold Obligations.StepKeepsInv
  intro s t hs ht
  cases hrun : s.running with
  | false =>
    obtain rfl : s = t := by simpa [step_of_stopped hrun] using ht
    exact hs
  | true => exact hs.exec s.fetch_wellFormed ((step_of_running hrun).symm.trans ht)

/-- Settles O32: a faulting instruction keeps every register, a completing one by
`State.completed_getReg`. -/
theorem registerFrame : Obligations.RegisterFrame := by
  unfold Obligations.RegisterFrame
  intro s t i ht j hj
  rcases exec_cases ht with ⟨-, rfl⟩ | ⟨c, -, rfl⟩
  · exact s.completed_getReg hj
  · rfl

/-- Settles O36: under the hypotheses register 5 is not written, so the register frame covers FL. -/
theorem onlyCmpSetsFlags : Obligations.OnlyCmpSetsFlags := by
  unfold Obligations.OnlyCmpSetsFlags
  intro s t i ht hcmp hldi hadd hmult hpop
  have hfl : (5 : Fin 8) ∉ writtenRegs i := by
    cases i with
    | hlt | prn _ | unknown _ => exact List.not_mem_nil
    | push _ | call _ | ret => simp [writtenRegs]
    | ldi r v => simpa [writtenRegs] using (hldi r v rfl).symm
    | add ra rb => simpa [writtenRegs] using (hadd ra rb rfl).symm
    | mult ra rb => simpa [writtenRegs] using (hmult ra rb rfl).symm
    | pop r => simpa [writtenRegs] using (hpop r rfl).symm
    | cmp ra rb => exact absurd rfl (hcmp ra rb)
  have h : t.fl = s.fl := registerFrame s t i ht flIndex hfl
  simp only [State.flagE, State.flagG, State.flagL, h, and_self]

/-- Settles O37: without a raised fault the next state is `State.completed`. -/
theorem pcAdvance : Obligations.PcAdvance := by
  unfold Obligations.PcAdvance
  intro s t i hcall hret hn ht
  rcases exec_cases ht with ⟨-, rfl⟩ | ⟨c, hr, -⟩
  · exact s.completed_pc hcall hret
  · cases hn.symm.trans hr

/-- Settles O38: both states raise the same, and the effect commutes with a change of the control
fields. -/
theorem controlStateNotRead : Obligations.ControlStateNotRead := by
  unfold Obligations.ControlStateNotRead
  intro s s' t t' i hregs hpc hmem hp ht ht'
  have hr' : raises s' i = raises s i := by
    rw [State.eq_withControl hregs hpc hmem hp, raises_withControl]
  rcases exec_cases ht with ⟨hn, rfl⟩ | ⟨c, hc, rfl⟩ <;>
    rcases exec_cases ht' with ⟨hn', rfl⟩ | ⟨c', hc', rfl⟩
  · have hco := s.completed_withControl i s'.running s'.fault s'.events
    rw [← State.eq_withControl hregs hpc hmem hp] at hco
    rw [hco]
    exact ⟨rfl, rfl, rfl, ⟨s.emitted i, s.completed_events i, rfl⟩, .inl ⟨s.completed_fault i, rfl⟩⟩
  · cases hc'.symm.trans (hr'.trans hn)
  · cases hc.symm.trans (hr'.symm.trans hn')
  · obtain rfl : c' = c := Option.some.inj (hc'.symm.trans (hr'.trans hc))
    exact ⟨hregs, hpc, hmem, ⟨[], by simp⟩, .inr rfl⟩

/-- Settles O41, by induction on the number of steps. -/
theorem stoppedForever : Obligations.StoppedForever := by
  unfold Obligations.StoppedForever
  intro s k hs
  have hstep : Sys2Proof.core.step s = .next s := step_of_stopped hs
  induction k with
  | zero => rfl
  | succ k ih => exact (run_succ_of_next hstep k).trans ih

/-- Settles O12: reset in any state is `State.reset` but for the parameter. -/
theorem resetState : Obligations.ResetState := by
  unfold Obligations.ResetState
  refine ⟨rfl, rfl, fun s => ⟨?_, fun j hj => ?_, rfl, rfl, rfl, fun a => ?_, rfl, rfl⟩⟩
  · rw [s.hostReset_getReg, State.reset_getReg, if_pos rfl]
  · rw [s.hostReset_getReg, State.reset_getReg, if_neg hj]
  · rw [s.hostReset_memRead, State.reset_memRead]

/-- Settles O13: after reset memory is empty, nothing is latched and nothing is logged. -/
theorem resetMeetsInv : Obligations.ResetMeetsInv where
  memory := State.reset_wf
  status _ := rfl
  latch := nofun
  log := nofun

/-- Settles O44: where a fault is latched the invariant excludes `running`. -/
theorem statusOfState : Obligations.StatusOfState := by
  unfold Obligations.StatusOfState
  intro s hs
  cases hf : s.fault with
  | some c =>
    have hrun : s.running = false := by
      by_contra h
      cases hf.symm.trans (hs.status (by simpa using h))
    simp [State.status, hf, hrun]
  | none => cases hrun : s.running <;> simp [State.status, hf, hrun]

end Sys2Proof.Machine

/-!
Memory: the accessors, what the stack's store and a placed instruction leave to be read, and the
memory frame. PUSH and CALL share the store to the decremented SP; the decoder and the fetch share
the dispatch table.
-/

namespace Sys2Proof

/-- Decoding three bytes is dispatching them: three are enough for every opcode, and the decoder
looks at no operand byte that the dispatch table ignores (R60, D14). -/
theorem decode_three (op b1 b2 : Byte) :
    ∃ rest, decode [op, b1, b2] = .ok (dispatch op b1 b2, rest) := by
  rcases opcode_cases op with
    rfl | rfl | rfl | rfl | rfl | rfl | rfl | rfl | rfl | rfl | ⟨hn, hd, -⟩
  case inr.inr.inr.inr.inr.inr.inr.inr.inr.inr =>
    exact ⟨[b1, b2], by simp [decode, operandCount_of_unknown hn, hd]⟩
  all_goals exact ⟨_, rfl⟩

/-- The instruction read from three bytes is the one the dispatch table gives for them. -/
theorem dispatch_of_decode_three {op b1 b2 : Byte} {i : Instr} {rest : List Byte}
    (h : decode [op, b1, b2] = .ok (i, rest)) : dispatch op b1 b2 = i := by
  obtain ⟨rest', h'⟩ := decode_three op b1 b2
  cases h.symm.trans h'
  rfl

theorem decode_of_decodeTableWord {nbits w : Nat} {i : Instr}
    (h : decodeTableWord nbits w = some i) :
    ∃ rest, decode (tableBytes nbits w) = .ok (i, rest) := by
  rw [decodeTableWord] at h
  split at h
  · next j rest hd =>
    cases h
    exact ⟨rest, hd⟩
  · cases h

namespace Machine

/-! ### Reads -/

theorem State.memRead_congr {s t : State} (h : s.mem = t.mem) (a : Byte) :
    s.memRead a = t.memRead a := by rw [memRead, memRead, h]

/-- A read after a write (R30). -/
theorem State.memRead_memWrite (s : State) (a b v : Byte) :
    (s.memWrite a v).memRead b = if b = a then v else s.memRead b := by
  simp only [memRead, memWrite_mem, Memory.cell_setCell, BitVec.toNat_inj]

/-- What is read after the store of PUSH and CALL (R95, R100): `v` at SP - 1, everything else as
before. -/
theorem State.memRead_storeTop_decSp (s : State) (v a : Byte) :
    ((s.setReg spIndex (s.sp - 1)).storeTop v).memRead a =
      if a = s.getReg 6 - 1 then v else s.memRead a := by
  rw [storeTop_eq, memRead_memWrite, sp, getReg_setReg_self, memRead_setReg]
  rfl

/-- The byte that PUSH stores is the register's as the decrement of SP left it (D6). -/
theorem State.completed_push_memRead (s : State) (r a : Byte) :
    (s.completed (.push r)).memRead a =
      if a = s.getReg 6 - 1 then
        if namedReg r = 6 then s.getReg 6 - 1 else s.getReg (namedReg r)
      else s.memRead a := by
  rw [completed, memRead_setPc, memRead_storeTop_decSp, getReg_setReg]
  rfl

theorem State.completed_call_memRead (s : State) (r a : Byte) :
    (s.completed (.call r)).memRead a =
      if a = s.getReg 6 - 1 then s.pc + 2 else s.memRead a :=
  s.memRead_storeTop_decSp (s.pc + 2) a

/-- R31: the effect of an instruction stores only to addresses that the table lists. -/
theorem State.completed_memRead (s : State) {i : Instr} {a : Byte} (h : a ∉ storedAddrs s i) :
    (s.completed i).memRead a = s.memRead a := by
  cases i with
  | push r => rw [completed_push_memRead, if_neg (List.ne_of_not_mem_cons h)]
  | call r => rw [completed_call_memRead, if_neg (List.ne_of_not_mem_cons h)]
  | _ => rfl

/-- Where the table raises nothing, the next state is the completed one. -/
theorem eq_completed_of_exec {s t : State} {i : Instr} (hn : raises s i = none)
    (ht : exec i s = .next t) : t = s.completed i := by
  rcases exec_cases ht with ⟨-, rfl⟩ | ⟨c, hc, -⟩
  · rfl
  · cases hn.symm.trans hc

/-! ### The placed instruction -/

theorem State.writeBytes_pc (s : State) (a : Byte) (code : List Byte) :
    (s.writeBytes a code).pc = s.pc := by
  induction code generalizing s a with
  | nil => rfl
  | cons v vs ih => exact ih (s.memWrite a v) (a + 1)

theorem State.placeCode_pc (s : State) (code : List Byte) : (s.placeCode code).pc = s.pc :=
  s.writeBytes_pc s.pc code

theorem State.memRead_placeCode (s : State) (code : List Byte) (a : Byte) :
    (s.placeCode code).memRead a = (s.writeBytes s.pc code).memRead a := rfl

/-- Three bytes placed at `pc`, modulo 256, are the ones fetched: their addresses differ. -/
theorem State.fetch_placeCode (s : State) (op b1 b2 : Byte) :
    (s.placeCode [op, b1, b2]).fetch = dispatch op b1 b2 := by
  have h01 : s.pc ≠ s.pc + 1 := by bv_omega
  have h02 : s.pc ≠ s.pc + 1 + 1 := by bv_omega
  have h12 : s.pc + 1 ≠ s.pc + 1 + 1 := by bv_omega
  have h2 : s.pc + 2 = s.pc + 1 + 1 := by bv_omega
  rw [fetch_eq, placeCode_pc, h2]
  simp only [memRead_placeCode, writeBytes, memRead_memWrite, h01, h02, h12, if_true, if_false]

theorem State.fetch_withFetchWord (s : State) {nbits w : Nat} {i : Instr}
    (h : decodeTableWord nbits w = some i) : (s.withFetchWord nbits w).fetch = i := by
  obtain ⟨rest, hd⟩ := decode_of_decodeTableWord h
  exact (s.fetch_placeCode _ _ _).trans (dispatch_of_decode_three hd)

/-! ### The obligations -/

/-- Settles O51: the read is `State.memRead_memWrite`, and a write is an update of memory. -/
theorem memoryAccessors : Obligations.MemoryAccessors := by
  unfold Obligations.MemoryAccessors
  exact fun s a b v => ⟨s.memRead_memWrite a b v, rfl⟩

/-- Settles O9: the placing sets the engine RUNNING, and the fetch reads the placed word as the
decoder does. -/
theorem placedWordRuns : Obligations.PlacedWordRuns := by
  unfold Obligations.PlacedWordRuns
  intro s nbits w i h
  have hrun : (s.withFetchWord nbits w).running = true := rfl
  rw [step_of_running hrun, s.fetch_withFetchWord h]

/-- Settles O11: the fetch reads the stored address in the memory that the completed instruction
left. -/
theorem storedByteIsFetched : Obligations.StoredByteIsFetched := by
  unfold Obligations.StoredByteIsFetched
  intro s t u r k hmem hk
  have hfetch : u.fetchByte k = t.memRead (s.getReg 6 - 1) := by
    rw [State.fetchByte, hk, State.memRead_congr hmem]
  rw [hfetch]
  refine ⟨fun hn ht => ?_, fun hn ht => ?_⟩
  · rw [eq_completed_of_exec hn ht, State.completed_push_memRead, if_pos rfl]
  · rw [eq_completed_of_exec hn ht, State.completed_call_memRead, if_pos rfl]

/-- Settles O33: a faulting instruction keeps memory, a completing one by
`State.completed_memRead`. -/
theorem memoryFrame : Obligations.MemoryFrame := by
  unfold Obligations.MemoryFrame
  intro s t i ht a ha
  rcases exec_cases ht with ⟨-, rfl⟩ | ⟨c, -, rfl⟩
  · exact s.completed_memRead ha
  · exact s.memRead_raise c a

end Machine

end Sys2Proof

/-!
The encoding: decoder and encoder against each other, and the length of an instruction. The decoder's
answer is read off its dispatch table (`eq_dispatch_of_decode`), and the encoding of what that table
gives is the opcode byte with as many of the two bytes after it as the opcode says
(`encode_dispatch`).
-/

namespace Sys2Proof

/-! ### The decoder after the encoder -/

theorem dispatch_of_unknown {op : Byte} (hn : formatOf op = none) (b1 b2 : Byte) :
    dispatch op b1 b2 = .unknown op := by
  rcases opcode_cases op with
    rfl | rfl | rfl | rfl | rfl | rfl | rfl | rfl | rfl | rfl | ⟨-, hd, -⟩
  pick_goal 11
  · exact hd b1 b2
  all_goals cases hn

/-- An unknown opcode is decoded alone: no byte after it is looked at (R58, R60). -/
theorem decode_of_unknown {op : Byte} (hn : formatOf op = none) (rest : List Byte) :
    decode (op :: rest) = .ok (.unknown op, rest) := by
  simp [decode, operandCount_of_unknown hn, dispatch_of_unknown hn]

/-- Only the unknown opcode has a condition to meet; each other encoding evaluates, whatever its
operand bytes are. -/
theorem decode_encode {i : Instr} (hi : i.wellFormed = true) (rest : List Byte) :
    decode (encode i ++ rest) = .ok (i, rest) := by
  cases i with
  | unknown op =>
    have hn : formatOf op = none := by simpa [Instr.wellFormed] using hi
    exact decode_of_unknown hn rest
  | _ => rfl

/-! ### The encoder after the decoder -/

/-- The dispatch table loses only the bytes that are no operands of the opcode (R50, R56). -/
theorem encode_dispatch (op b1 b2 : Byte) :
    encode (dispatch op b1 b2) = op :: [b1, b2].take (operandCount op) := by
  rcases opcode_cases op with
    rfl | rfl | rfl | rfl | rfl | rfl | rfl | rfl | rfl | rfl | ⟨hn, hd, -⟩
  pick_goal 11
  · rw [hd, operandCount_of_unknown hn]
    rfl
  all_goals rfl

/-- What the decoder answers: the dispatch table's instruction for two bytes of which the first
`operandCount op` stand in front of the rest. -/
theorem eq_dispatch_of_decode {op : Byte} {tail rest : List Byte} {i : Instr}
    (h : decode (op :: tail) = .ok (i, rest)) :
    ∃ b1 b2, i = dispatch op b1 b2 ∧ tail = [b1, b2].take (operandCount op) ++ rest := by
  simp only [decode] at h
  split at h
  · next hc =>
    cases h
    exact ⟨0, 0, rfl, by rw [hc]; rfl⟩
  · next b1 tl hc =>
    cases h
    exact ⟨b1, 0, rfl, by rw [hc]; rfl⟩
  · next b1 b2 tl hc =>
    cases h
    exact ⟨b1, b2, rfl, by rw [hc]; rfl⟩
  · cases h

theorem encode_append_of_decode {op : Byte} {tail rest : List Byte} {i : Instr}
    (h : decode (op :: tail) = .ok (i, rest)) : encode i ++ rest = op :: tail := by
  obtain ⟨b1, b2, rfl, rfl⟩ := eq_dispatch_of_decode h
  rw [encode_dispatch, List.cons_append]

/-! ### Lengths -/

theorem operandCount_le_two (op : Byte) : operandCount op ≤ 2 := by
  rw [operandCount]
  split
  · next f _ => cases f <;> simp [operandsOfFormat]
  · exact Nat.zero_le 2

theorem length_encode_dispatch (op b1 b2 : Byte) :
    (encode (dispatch op b1 b2)).length = lengthOf op := by
  rw [encode_dispatch, List.length_cons, List.length_take_of_le (operandCount_le_two op), lengthOf]

/-- The lengths of R60, written out by opcode. -/
theorem lengthOf_eq (op : Byte) :
    lengthOf op =
      if op ∈ [(0x01 : Byte), 0x11] then 1
      else if op ∈ [(0x47 : Byte), 0x45, 0x46, 0x50] then 2
      else if op ∈ [(0x82 : Byte), 0xA2, 0xA0, 0xA7] then 3
      else 1 := by
  rcases opcode_cases op with
    rfl | rfl | rfl | rfl | rfl | rfl | rfl | rfl | rfl | rfl | ⟨hn, -, hne⟩
  pick_goal 11
  · simp only [lengthOf, operandCount_of_unknown hn, List.mem_cons, List.not_mem_nil, hne, or_self,
      if_false]
  all_goals rfl

/-! ### The obligations -/

/-- Settles O1: the split over the instructions is `decode_encode`. -/
theorem decodeOfEncode : Obligations.DecodeOfEncode := by
  unfold Obligations.DecodeOfEncode
  exact fun _ rest hi => decode_encode hi rest

/-- Settles O2: what is decoded comes from the dispatch table, which gives only well-formed
instructions. -/
theorem encodeOfDecode : Obligations.EncodeOfDecode := by
  unfold Obligations.EncodeOfDecode
  intro bytes rest i h
  cases bytes with
  | nil => cases h
  | cons op tail =>
    refine ⟨?_, encode_append_of_decode h⟩
    obtain ⟨b1, b2, rfl, -⟩ := eq_dispatch_of_decode h
    exact dispatch_wellFormed op b1 b2

/-- Settles O5: in a list and in memory the instruction is the dispatch table's, whose encoding has
the opcode's length. -/
theorem lengthFromOpcodeAlone : Obligations.LengthFromOpcodeAlone := by
  unfold Obligations.LengthFromOpcodeAlone
  intro length
  have hlength : ∀ op, length op = lengthOf op := fun op => (lengthOf_eq op).symm
  refine ⟨fun op tail rest i h => ?_, fun s => ?_⟩
  · rw [hlength, ← encode_append_of_decode h, List.length_append]
    obtain ⟨b1, b2, rfl, -⟩ := eq_dispatch_of_decode h
    rw [length_encode_dispatch]
  · rw [hlength, s.fetch_eq, length_encode_dispatch]

/-- Settles O3: each row evaluates, and the default row is `decode_of_unknown`. -/
theorem opcodeTable : Obligations.OpcodeTable := by
  unfold Obligations.OpcodeTable
  intro op b c rest
  rcases opcode_cases op with
    rfl | rfl | rfl | rfl | rfl | rfl | rfl | rfl | rfl | rfl | ⟨hn, -, hne⟩
  pick_goal 11
  · simp only [decode_of_unknown hn, hne, if_false]
  all_goals rfl

/-- Settles O4: each word is the encoding of its instruction, the last with two bytes after it. -/
theorem specWordsDecode : Obligations.SpecWordsDecode := by
  unfold Obligations.SpecWordsDecode
  exact ⟨decode_encode (i := .ldi 0 8) rfl [], decode_encode (i := .prn 0) rfl [],
    decode_encode (i := .hlt) rfl [], decode_encode (i := .mult 0 1) rfl [],
    decode_encode (i := .add 0 1) rfl [], decode_encode (i := .cmp 0 1) rfl [],
    decode_encode (i := .push 0) rfl [], decode_encode (i := .pop 1) rfl [],
    decode_encode (i := .call 1) rfl [], decode_encode (i := .ret) rfl [],
    decode_encode (i := .unknown 0x80) rfl [0x01, 0x08]⟩

/-- Settles O6: the ten opcodes evaluate, and an unknown one has no operand bytes. -/
theorem highBitsOfOpcode : Obligations.HighBitsOfOpcode := by
  unfold Obligations.HighBitsOfOpcode
  intro op
  refine ⟨fun hf => ?_, fun hn => by rw [lengthOf, operandCount_of_unknown hn]⟩
  rcases opcode_cases op with
    rfl | rfl | rfl | rfl | rfl | rfl | rfl | rfl | rfl | rfl | ⟨hn, -⟩
  pick_goal 11
  · exact absurd hn hf
  all_goals rfl

end Sys2Proof

/-!
The engine cycle: the step in terms of the fetched bytes, which bytes a fetch depends on, the two
ways to stop, and the whole effect of HLT and of the unknown opcode. A fetch is read through the
dispatch table, an effect through `exec_of_raises_none` and `exec_of_raises_some`.
-/

namespace Sys2Proof

/-! ### The bytes that an instruction depends on -/

/-- Equal encodings come from equal instructions: the decoder reads both back. -/
theorem encode_injective {i j : Instr} (hi : i.wellFormed = true) (hj : j.wellFormed = true)
    (h : encode i = encode j) : i = j := by
  have hd : decode (encode j ++ []) = .ok (i, []) := h ▸ decode_encode hi []
  cases hd.symm.trans (decode_encode hj [])
  rfl

theorem take_two_congr {α : Type} {b1 b2 c1 c2 : α} {n : Nat} (hn : n ≤ 2)
    (h1 : 0 < n → b1 = c1) (h2 : 1 < n → b2 = c2) : [b1, b2].take n = [c1, c2].take n := by
  match n, hn with
  | 0, _ => rfl
  | 1, _ => simpa using h1
  | 2, _ => simpa using And.intro h1 h2

/-- The dispatch table looks only at the operand bytes of the opcode's format (R75, D14): the
encoding of its instruction holds no others. -/
theorem dispatch_congr {op b1 b2 c1 c2 : Byte} (h1 : 0 < operandCount op → b1 = c1)
    (h2 : 1 < operandCount op → b2 = c2) : dispatch op b1 b2 = dispatch op c1 c2 := by
  refine encode_injective (dispatch_wellFormed op b1 b2) (dispatch_wellFormed op c1 c2) ?_
  rw [encode_dispatch, encode_dispatch, take_two_congr (operandCount_le_two op) h1 h2]

namespace Machine

/-! ### The answer of an instruction, by R113's table -/

theorem exec_of_raises_none {s : State} {i : Instr} (h : raises s i = none) :
    exec i s = .next (s.completed i) := by
  rw [exec_eq, State.nextState_of_none h]

theorem exec_of_raises_some {s : State} {i : Instr} {c : FaultCause} (h : raises s i = some c) :
    exec i s = .next (s.latched c) := by
  rw [exec_eq, State.nextState_of_some h]
  rfl

theorem raises_of_fault {s : State} (h : s.rangePolicy = .fault) (i : Instr) :
    raises s i = firstOf (rangeConditions s i) := by rw [raises, h]

theorem raises_unknown_none {s : State} (op : Byte) (h : s.rangePolicy = .wrap ∨ s.pc ≠ 0xFF) :
    raises s (.unknown op) = none :=
  raises_none.mpr (passed_cons.mpr ⟨h.imp_right beq_false_of_ne, .inr rfl⟩)

theorem raises_unknown_above {s : State} (op : Byte) (hp : s.rangePolicy = .fault)
    (hpc : s.pc = 0xFF) : raises s (.unknown op) = some above := by
  rw [raises_of_fault hp, rangeConditions, hpc]
  rfl

/-! ### The obligations -/

/-- Settles O10: both states fetch the same opcode and agree on its operand bytes, and the dispatch
table looks at no others. -/
theorem fetchReadsOwnBytesOnly : Obligations.FetchReadsOwnBytesOnly := by
  unfold Obligations.FetchReadsOwnBytesOnly
  intro s t hpc h
  have hbyte : ∀ k < lengthOf (s.fetchByte 0), s.fetchByte k = t.fetchByte k := by
    rw [s.fetchByte_zero]
    intro k hk
    rw [State.fetchByte, State.fetchByte, ← hpc]
    exact h k hk
  rw [State.fetch, State.fetch, ← hbyte 0 (Nat.succ_pos _)]
  exact dispatch_congr (fun h1 => hbyte 1 (Nat.succ_lt_succ h1))
    (fun h2 => hbyte 2 (Nat.succ_lt_succ h2))

/-- Settles O16: the one check of the unknown opcode's row decides between its effect and the
latch. -/
theorem unknownEffect : Obligations.UnknownEffect := by
  unfold Obligations.UnknownEffect
  exact fun _ op => ⟨fun h => exec_of_raises_none (raises_unknown_none op h),
    fun hp hpc => exec_of_raises_some (raises_unknown_above op hp hpc)⟩

/-- Settles O42: an instruction that completes clears `running` only if it is HLT, and one that
faults latches the cause that R113's table gives. -/
theorem terminationPaths : Obligations.TerminationPaths := by
  unfold Obligations.TerminationPaths
  intro s t hs ht hstop
  rw [step_of_running hs] at ht
  rcases exec_cases ht with ⟨-, rfl⟩ | ⟨c, hc, rfl⟩
  · left
    by_contra hne
    rw [State.completed_running, if_neg hne, hs] at hstop
    cases hstop
  · exact .inr ⟨c, hc, rfl⟩

/-- Settles O7: a running engine executes what the dispatch table gives for the three bytes, and
executing a row chosen by the table is choosing among the executed rows. -/
theorem engineStep : Obligations.EngineStep := by
  unfold Obligations.EngineStep
  intro s
  refine ⟨step_of_stopped, fun hs => ?_⟩
  intro op b c
  rw [step_of_running hs, s.fetch_eq]
  change exec (dispatch op b c) s = _
  simp only [dispatch, apply_ite (exec · s), BitVec.ofNat_eq_ofNat]

/-- Settles O8: the fetch gives what the three bytes decode to. -/
theorem stepRunsDecoded : Obligations.StepRunsDecoded := by
  unfold Obligations.StepRunsDecoded
  intro s i rest hs hd
  rw [step_of_running hs, s.fetch_eq, dispatch_of_decode_three hd]

/-- Settles O15: HLT's meaning makes no range check, so it is the stated effect by definition. -/
theorem hltEffect : Obligations.HltEffect := by
  unfold Obligations.HltEffect
  exact fun _ => ⟨rfl, rfl⟩

end Machine

end Sys2Proof

/-!
Load and output: LDI and PRN. Under `fault` a row of R113's table becomes a chain of cases over the
numbers `pc` and the register byte, one lemma per instruction, and the effects are read off the row
through `exec_of_raises_none` and `exec_of_raises_some`.
-/

namespace Sys2Proof.Machine

/-! ### The checks of R113's table over numbers -/

theorem firstOf_beq (a v : Byte) (c : FaultCause) (l : List (Bool × FaultCause)) :
    firstOf ((a == v, c) :: l) = if a.toNat = v.toNat then some c else firstOf l := by
  simp only [firstOf, beq_iff_eq, BitVec.toNat_eq]

theorem firstOf_badReg (r : Byte) (l : List (Bool × FaultCause)) :
    firstOf ((8 ≤ r.toNat, badReg r) :: l) =
      if 8 ≤ r.toNat then some (badReg r) else firstOf l := by
  simp only [firstOf, decide_eq_true_eq]

/-- Checks (1) and (2) of R75 latch the same value: one of them fails where `pc + 2` is no address. -/
theorem firstOf_operandAddrs_two (pc : Byte) (l : List (Bool × FaultCause)) :
    firstOf ((pc == 0xFF, above) :: (pc == 0xFE, above) :: l) =
      if 0xFE ≤ pc.toNat then some above else firstOf l := by
  have hpc : 0xFE ≤ pc.toNat ↔ pc.toNat = 0xFF ∨ pc.toNat = 0xFE := by bv_omega
  simp only [firstOf_beq, hpc, ite_or]
  rfl

theorem raises_of_wrap {s : State} (h : s.rangePolicy = .wrap) (i : Instr) : raises s i = none := by
  rw [raises, h]

theorem raises_ldi {s : State} (h : s.rangePolicy = .fault) (r v : Byte) :
    raises s (.ldi r v) =
      if 0xFE ≤ s.pc.toNat then some above
      else if 8 ≤ r.toNat then some (badReg r)
      else if s.pc.toNat = 0xFD then some above
      else none := by
  rw [raises_of_fault h, rangeConditions, firstOf_operandAddrs_two, firstOf_badReg, firstOf_beq]
  rfl

theorem raises_prn {s : State} (h : s.rangePolicy = .fault) (r : Byte) :
    raises s (.prn r) =
      if s.pc.toNat = 0xFF then some above
      else if 8 ≤ r.toNat then some (badReg r)
      else if s.pc.toNat = 0xFE then some above
      else none := by
  rw [raises_of_fault h, rangeConditions, firstOf_beq, firstOf_badReg, firstOf_beq]
  rfl

theorem raises_ldi_none {s : State} {r : Byte} (v : Byte)
    (h : s.rangePolicy = .wrap ∨ s.pc.toNat ≤ 0xFC ∧ r.toNat ≤ 7) : raises s (.ldi r v) = none := by
  cases hp : s.rangePolicy with
  | wrap => exact raises_of_wrap hp _
  | fault =>
    obtain ⟨hpc, hr⟩ := h.resolve_left (by simp [hp])
    rw [raises_ldi hp, if_neg (by omega), if_neg (by omega), if_neg (by omega)]

theorem raises_prn_none {s : State} {r : Byte}
    (h : s.rangePolicy = .wrap ∨ s.pc.toNat ≤ 0xFD ∧ r.toNat ≤ 7) : raises s (.prn r) = none := by
  cases hp : s.rangePolicy with
  | wrap => exact raises_of_wrap hp _
  | fault =>
    obtain ⟨hpc, hr⟩ := h.resolve_left (by simp [hp])
    rw [raises_prn hp, if_neg (by omega), if_neg (by omega), if_neg (by omega)]

/-! ### LDI and HLT in memory -/

theorem State.fetch_of_hlt {s : State} (h : s.memRead s.pc = 0x01) : s.fetch = .hlt := by
  rw [fetch_eq, h]
  rfl

theorem State.fetch_of_ldi {s : State} (h : s.memRead s.pc = 0x82) :
    s.fetch = .ldi (s.memRead (s.pc + 1)) (s.memRead (s.pc + 2)) := by
  rw [fetch_eq, h]
  rfl

theorem raises_hlt (s : State) : raises s .hlt = none := raises_none.mpr (.inr rfl)

/-- A running engine goes on from the effect of the instruction that it fetches, where nothing is
raised. -/
theorem run_succ_of_fetch {s : State} {i : Instr} (hs : s.running = true) (hf : s.fetch = i)
    (hn : raises s i = none) (k : Nat) :
    Sys2Proof.core.run (k + 1) s = Sys2Proof.core.run k (s.completed i) :=
  run_succ_of_next (M := Sys2Proof.core)
    ((step_of_running hs).trans (hf.symm ▸ exec_of_raises_none hn)) k

/-! ### The obligations -/

/-- Settles O17: the row of LDI decides which clause applies, in its order of checks. -/
theorem ldiEffect : Obligations.LdiEffect := by
  unfold Obligations.LdiEffect
  refine fun s r v => ⟨rfl, fun h => exec_of_raises_none (raises_ldi_none v h), fun hp =>
    ⟨fun hpc => exec_of_raises_some (c := above) ?_,
      fun hpc hr => exec_of_raises_some (c := badReg r) ?_,
      fun hpc hr => exec_of_raises_some (c := above) ?_⟩⟩
  · rw [raises_ldi hp, if_pos hpc]
  · rw [raises_ldi hp, if_neg (by omega), if_pos hr]
  · rw [raises_ldi hp, if_neg (by omega), if_neg (by omega), if_pos hpc]

/-- Settles O18: the row of PRN decides which clause applies, in its order of checks. -/
theorem prnEffect : Obligations.PrnEffect := by
  unfold Obligations.PrnEffect
  refine fun s r => ⟨rfl, fun h => exec_of_raises_none (raises_prn_none h), fun hp =>
    ⟨fun hpc => exec_of_raises_some (c := above) ?_,
      fun hpc hr => exec_of_raises_some (c := badReg r) ?_,
      fun hpc hr => exec_of_raises_some (c := above) ?_⟩⟩
  · rw [raises_prn hp, if_pos hpc]
  · rw [raises_prn hp, if_neg (by omega), if_pos hr]
  · rw [raises_prn hp, if_neg (by omega), if_neg (by omega), if_pos hpc]

/-- Settles O47: LDI leaves memory and `running` as they were, so the second step fetches the HLT at
`pc + 3`. -/
theorem ldiThenHlt : Obligations.LdiThenHlt := by
  unfold Obligations.LdiThenHlt
  intro s r value hs hn hop hr hv hhlt
  have hfetch : s.fetch = .ldi r value := by rw [State.fetch_of_ldi hop, hr, hv]
  have hldi := run_succ_of_fetch hs hfetch hn 1
  have hstop := run_succ_of_fetch (s := s.completed (.ldi r value)) hs (State.fetch_of_hlt hhlt)
    (raises_hlt _) 0
  have hpc : s.pc + 3 + 1 = s.pc + 4 := by bv_omega
  exact ⟨_, hldi.trans hstop, s.getReg_setReg_self _ _, rfl, hpc, rfl⟩

end Sys2Proof.Machine

/-!
The ALU: ADD, MULT and CMP share one pseudocode (R85) and one row of R113's table, so everything that
does not depend on the operation is said once over `AluOp`, of the instruction `AluOp.instr`.
-/

namespace Sys2Proof.Machine

/-! ### The ALU's output -/

theorem aluApply_add_toNat (a b : Byte) :
    (aluApply .add a b).toNat = (a.toNat + b.toNat) % 256 := BitVec.toNat_add a b

theorem aluApply_mult_toNat (a b : Byte) :
    (aluApply .mult a b).toNat = (a.toNat * b.toNat) % 256 := BitVec.toNat_mul a b

theorem aluApply_add_eq (a b : Byte) :
    aluApply .add a b = BitVec.ofNat 8 ((a.toNat + b.toNat) % 256) := by
  rw [← aluApply_add_toNat, BitVec.ofNat_toNat, BitVec.setWidth_eq]

theorem aluApply_mult_eq (a b : Byte) :
    aluApply .mult a b = BitVec.ofNat 8 ((a.toNat * b.toNat) % 256) := by
  rw [← aluApply_mult_toNat, BitVec.ofNat_toNat, BitVec.setWidth_eq]

/-- The three outcomes of a comparison (R90). -/
theorem compareFlags_cases (a b : Byte) :
    (a = b ∧ compareFlags a b = flagEqual) ∨
      (b.toNat < a.toNat ∧ compareFlags a b = flagGreater) ∨
      (a.toNat < b.toNat ∧ compareFlags a b = flagLess) := by
  rcases Nat.lt_trichotomy a.toNat b.toNat with h | h | h
  · exact .inr (.inr ⟨h, compareFlags_lt h⟩)
  · obtain rfl := BitVec.eq_of_toNat_eq h
    exact .inl ⟨rfl, compareFlags_self a⟩
  · exact .inr (.inl ⟨h, compareFlags_gt h⟩)

/-! ### The instruction of an operation -/

/-- The instruction that runs an ALU operation (R86). -/
def AluOp.instr : AluOp → Byte → Byte → Instr
  | .add => .add
  | .mult => .mult
  | .cmp => .cmp

theorem State.completed_aluInstr (s : State) (op : AluOp) (ra rb : Byte) :
    s.completed (op.instr ra rb) = s.aluCompleted op ra rb := by cases op <;> rfl

/-- The row of R113's table that the three instructions share. -/
theorem rangeConditions_aluInstr (s : State) (op : AluOp) (ra rb : Byte) :
    rangeConditions s (op.instr ra rb) =
      [(s.pc == 0xFF, above), (s.pc == 0xFE, above), (8 ≤ ra.toNat, badReg ra),
        (8 ≤ rb.toNat, badReg rb), (s.pc == 0xFD, above)] := by cases op <;> rfl

theorem raises_aluInstr {s : State} (h : s.rangePolicy = .fault) (op : AluOp) (ra rb : Byte) :
    raises s (op.instr ra rb) =
      if 0xFE ≤ s.pc.toNat then some above
      else if 8 ≤ ra.toNat then some (badReg ra)
      else if 8 ≤ rb.toNat then some (badReg rb)
      else if s.pc.toNat = 0xFD then some above
      else none := by
  rw [raises_of_fault h, rangeConditions_aluInstr, firstOf_operandAddrs_two, firstOf_badReg,
    firstOf_badReg, firstOf_beq]
  rfl

theorem raises_aluInstr_none {s : State} (op : AluOp) {ra rb : Byte}
    (h : s.rangePolicy = .wrap ∨ s.pc.toNat ≤ 0xFC ∧ ra.toNat ≤ 7 ∧ rb.toNat ≤ 7) :
    raises s (op.instr ra rb) = none := by
  cases hp : s.rangePolicy with
  | wrap => exact raises_of_wrap hp _
  | fault =>
    obtain ⟨hpc, hra, hrb⟩ := h.resolve_left (by simp [hp])
    rw [raises_aluInstr hp, if_neg (by omega), if_neg (by omega), if_neg (by omega),
      if_neg (by omega)]

/-- An ALU instruction that raises nothing: the output for both old values goes to the operation's
target, and `pc` moves by 3 (R87, R88, R90). -/
theorem exec_aluInstr {s : State} {op : AluOp} {ra rb : Byte}
    (h : raises s (op.instr ra rb) = none) :
    exec (op.instr ra rb) s = .next (s.aluCompleted op ra rb) := by
  rw [exec_of_raises_none h, State.completed_aluInstr]

/-- The faults of an ALU instruction under `fault`, in the order of checking (R113, R117). -/
theorem exec_aluInstr_faults {s : State} (hp : s.rangePolicy = .fault) (op : AluOp)
    (ra rb : Byte) :
    (0xFE ≤ s.pc.toNat → exec (op.instr ra rb) s = .next (s.latched above)) ∧
      (s.pc.toNat ≤ 0xFD → 8 ≤ ra.toNat →
        exec (op.instr ra rb) s = .next (s.latched (badReg ra))) ∧
      (s.pc.toNat ≤ 0xFD → ra.toNat ≤ 7 → 8 ≤ rb.toNat →
        exec (op.instr ra rb) s = .next (s.latched (badReg rb))) ∧
      (s.pc.toNat = 0xFD → ra.toNat ≤ 7 → rb.toNat ≤ 7 →
        exec (op.instr ra rb) s = .next (s.latched above)) := by
  refine ⟨fun hpc => exec_of_raises_some ?_, fun hpc hra => exec_of_raises_some ?_,
    fun hpc hra hrb => exec_of_raises_some ?_, fun hpc hra hrb => exec_of_raises_some ?_⟩
  · rw [raises_aluInstr hp, if_pos hpc]
  · rw [raises_aluInstr hp, if_neg (by omega), if_pos hra]
  · rw [raises_aluInstr hp, if_neg (by omega), if_neg (by omega), if_pos hrb]
  · rw [raises_aluInstr hp, if_neg (by omega), if_neg (by omega), if_neg (by omega), if_pos hpc]

theorem State.aluCompleted_getReg_target (s : State) (op : AluOp) (ra rb : Byte) :
    (s.aluCompleted op ra rb).getReg (aluTarget op (namedReg ra)) =
      aluApply op (s.getReg (namedReg ra)) (s.getReg (namedReg rb)) := s.getReg_setReg_self _ _

/-- An ALU instruction that raises nothing writes the ALU's output to the operation's target. -/
theorem exec_aluInstr_target {s : State} {op : AluOp} {ra rb : Byte}
    (h : raises s (op.instr ra rb) = none) :
    ∃ t, exec (op.instr ra rb) s = .next t ∧
      t.getReg (aluTarget op (namedReg ra)) =
        aluApply op (s.getReg (namedReg ra)) (s.getReg (namedReg rb)) :=
  ⟨_, exec_aluInstr h, s.aluCompleted_getReg_target op ra rb⟩

/-- The flags of a state, read off the value of FL (R24). -/
theorem State.flags_of_fl {t : State} {v : Byte} (h : t.fl = v) :
    t.flagE = v.getLsbD 0 ∧ t.flagG = v.getLsbD 1 ∧ t.flagL = v.getLsbD 2 ∧ t.getReg 5 = v := by
  subst h
  exact ⟨rfl, rfl, rfl, rfl⟩

/-! ### The obligations -/

/-- Settles O19: ADD is the ALU instruction whose target is register A and whose output is the
sum. -/
theorem addEffect : Obligations.AddEffect := by
  unfold Obligations.AddEffect
  refine fun s ra rb => ⟨rfl, fun h => ?_, fun hp => exec_aluInstr_faults hp .add ra rb⟩
  rw [← aluApply_add_eq]
  exact exec_aluInstr (op := .add) (raises_aluInstr_none .add h)

/-- Settles O20: MULT is the ALU instruction whose target is register A and whose output is the
product. -/
theorem multEffect : Obligations.MultEffect := by
  unfold Obligations.MultEffect
  refine fun s ra rb => ⟨rfl, fun h => ?_, fun hp => exec_aluInstr_faults hp .mult ra rb⟩
  rw [← aluApply_mult_eq]
  exact exec_aluInstr (op := .mult) (raises_aluInstr_none .mult h)

/-- Settles O21: CMP is the ALU instruction whose target is FL; its output `compareFlags` is the
stated comparison by definition. -/
theorem cmpEffect : Obligations.CmpEffect := by
  unfold Obligations.CmpEffect
  exact fun s ra rb => ⟨rfl, fun h => exec_aluInstr (op := .cmp) (raises_aluInstr_none .cmp h),
    fun hp => exec_aluInstr_faults hp .cmp ra rb⟩

/-- Settles O22: FL holds one of the three comparison bytes, and each of them has one bit set. -/
theorem cmpSetsExactlyOneFlag : Obligations.CmpSetsExactlyOneFlag := by
  unfold Obligations.CmpSetsExactlyOneFlag
  intro s ra rb hn
  refine ⟨_, exec_aluInstr (op := .cmp) hn, ?_⟩
  have hfl : (s.aluCompleted .cmp ra rb).fl =
      compareFlags (s.getReg (namedReg ra)) (s.getReg (namedReg rb)) :=
    s.aluCompleted_getReg_target .cmp ra rb
  rcases compareFlags_cases (s.getReg (namedReg ra)) (s.getReg (namedReg rb)) with
    ⟨h, hv⟩ | ⟨h, hv⟩ | ⟨h, hv⟩
  · obtain ⟨hE, hG, hL, h5⟩ := State.flags_of_fl (hfl.trans hv)
    simp [hE, hG, hL, h5, h, flagEqual]
  · obtain ⟨hE, hG, hL, h5⟩ := State.flags_of_fl (hfl.trans hv)
    have hne := ne_of_apply_ne BitVec.toNat h.ne'
    simp [hE, hG, hL, h5, h, hne, Nat.le_of_lt h, flagGreater]
  · obtain ⟨hE, hG, hL, h5⟩ := State.flags_of_fl (hfl.trans hv)
    have hne := ne_of_apply_ne BitVec.toNat h.ne
    simp [hE, hG, hL, h5, h, hne, Nat.le_of_lt h, flagLess]

/-- Settles O27: the output of each operation, and `exec_aluInstr_target` for where it goes. -/
theorem aluTable : Obligations.AluTable := by
  unfold Obligations.AluTable
  refine ⟨fun a b => ⟨aluApply_add_toNat a b, aluApply_mult_toNat a b, compareFlags_lt,
    compareFlags_gt, ?_⟩, fun s ra rb => ?_⟩
  · rintro rfl
    exact compareFlags_self a
  · exact ⟨exec_aluInstr_target (op := .add), exec_aluInstr_target (op := .mult),
      exec_aluInstr_target (op := .cmp)⟩

/-- Settles O30: an instruction that completes keeps the latch, and one that faults latches a cause
that R113 allows, which UnsupportedAluOp is not. -/
theorem noUnsupportedAluOp : Obligations.NoUnsupportedAluOp := by
  unfold Obligations.NoUnsupportedAluOp
  intro s t i ht hf
  rcases exec_cases ht with ⟨-, rfl⟩ | ⟨c, hc, rfl⟩
  · exact (s.completed_fault i).symm.trans hf
  · obtain rfl : c = .unsupportedAluOp := Option.some.inj hf
    exact (raises_legal hc).1.elim

end Sys2Proof.Machine

/-!
The stack: PUSH and POP, alone and after each other. Their rows of R113's table have one shape, so the
clauses that depend on the row alone are said once over `stackCause`; what each of them does is read
off `State.completed`, with SP spelled as register 6.
-/

namespace Sys2Proof.Machine

/-! ### The row of R113's table that PUSH and POP share -/

/-- The checks of PUSH and POP over numbers, in their order: the operand address, the register byte,
the move of SP (out of range where `p` holds, with cause `c`), the next `pc`. -/
def stackCause (s : State) (r : Byte) (p : Prop) [Decidable p] (c : FaultCause) :
    Option FaultCause :=
  if s.pc.toNat = 0xFF then some above
  else if 8 ≤ r.toNat then some (badReg r)
  else if p then some c
  else if s.pc.toNat = 0xFE then some above
  else none

theorem firstOf_stackRow (s : State) (r : Byte) (b : Bool) (c : FaultCause) :
    firstOf [(s.pc == 0xFF, above), (8 ≤ r.toNat, badReg r), (b, c), (s.pc == 0xFE, above)] =
      stackCause s r (b = true) c := by
  rw [firstOf_beq, firstOf_badReg, firstOf, firstOf_beq]
  rfl

/-- The move of SP is checked only where the register byte passed. -/
theorem stackCause_congr {s : State} {r : Byte} {p q : Prop} [Decidable p] [Decidable q]
    {c : FaultCause} (h : r.toNat ≤ 7 → (p ↔ q)) : stackCause s r p c = stackCause s r q c := by
  by_cases hr : 8 ≤ r.toNat
  · simp only [stackCause, if_pos hr]
  · simp only [stackCause, h (by omega)]

theorem raises_push {s : State} (h : s.rangePolicy = .fault) (r : Byte) :
    raises s (.push r) = stackCause s r (s.getReg 6 = 0x00) below := by
  rw [raises_of_fault h, rangeConditions, firstOf_stackRow]
  exact stackCause_congr fun _ => beq_iff_eq

/-- SP after the load of POP and before its increment: the loaded byte where the operand names SP
(R96, D6). -/
theorem State.sp_setReg_loadTop (s : State) (r : Byte) :
    (s.setReg (namedReg r) s.loadTop).sp =
      if namedReg r = 6 then s.memRead (s.getReg 6) else s.getReg 6 := by
  rw [sp, getReg_setReg]
  exact if_congr eq_comm rfl rfl

theorem raises_pop {s : State} (h : s.rangePolicy = .fault) (r : Byte) :
    raises s (.pop r) = stackCause s r
      ((if namedReg r = 6 then s.memRead (s.getReg 6) else s.getReg 6) = 0xFF) above := by
  rw [raises_of_fault h, rangeConditions, firstOf_stackRow]
  refine stackCause_congr fun hr => ?_
  rw [popCondition_eq s hr, State.sp_setReg_loadTop, beq_iff_eq]

section
variable {s : State} {i : Instr} {r : Byte} {p : Prop} [Decidable p] {c : FaultCause}

theorem raises_none_of_stackCause (hi : s.rangePolicy = .fault → raises s i = stackCause s r p c)
    (h : s.rangePolicy = .wrap ∨ s.pc.toNat ≤ 0xFD ∧ r.toNat ≤ 7 ∧ ¬p) : raises s i = none := by
  cases hp : s.rangePolicy with
  | wrap => exact raises_of_wrap hp i
  | fault =>
    obtain ⟨hpc, hr, hsp⟩ := h.resolve_left (by simp [hp])
    rw [hi hp, stackCause, if_neg (by omega), if_neg (by omega), if_neg hsp, if_neg (by omega)]

/-- The faults of PUSH and POP under `fault`, in the order of checking (R113, R117). -/
theorem exec_faults_of_stackCause (hi : raises s i = stackCause s r p c) :
    (s.pc.toNat = 0xFF → exec i s = .next (s.latched above)) ∧
      (s.pc.toNat ≤ 0xFE → 8 ≤ r.toNat → exec i s = .next (s.latched (badReg r))) ∧
      (s.pc.toNat ≤ 0xFE → r.toNat ≤ 7 → p → exec i s = .next (s.latched c)) ∧
      (s.pc.toNat = 0xFE → r.toNat ≤ 7 → ¬p → exec i s = .next (s.latched above)) := by
  refine ⟨fun hpc => exec_of_raises_some ?_, fun hpc hr => exec_of_raises_some ?_,
    fun hpc hr hsp => exec_of_raises_some ?_, fun hpc hr hsp => exec_of_raises_some ?_⟩
  · rw [hi, stackCause, if_pos hpc]
  · rw [hi, stackCause, if_neg (by omega), if_pos hr]
  · rw [hi, stackCause, if_neg (by omega), if_neg (by omega), if_pos hsp]
  · rw [hi, stackCause, if_neg (by omega), if_neg (by omega), if_neg hsp, if_pos hpc]

end

/-! ### What PUSH, POP and RET do to SP, the registers and `pc` -/

theorem State.completed_push_eq (s : State) (r : Byte) :
    s.completed (.push r) =
      { s with
        regs := s.regs.set 6 (s.getReg 6 - 1)
        mem := s.mem.setCell (s.getReg 6 - 1).toNat
          (if namedReg r = 6 then s.getReg 6 - 1 else s.getReg (namedReg r))
        pc := s.pc + 2 } := by
  rw [completed, storeTop_eq, sp, sp, getReg_setReg_self, getReg_setReg]
  rfl

theorem State.completed_pop_eq (s : State) (r : Byte) :
    s.completed (.pop r) =
      { s with
        regs := (s.regs.set (namedReg r) (s.memRead (s.getReg 6))).set 6
          ((if namedReg r = 6 then s.memRead (s.getReg 6) else s.getReg 6) + 1)
        pc := s.pc + 2 } := by
  rw [completed, sp_setReg_loadTop]
  rfl

theorem State.completed_push_sp (s : State) (r : Byte) :
    (s.completed (.push r)).getReg 6 = s.getReg 6 - 1 := s.getReg_setReg_self spIndex _

/-- PUSH leaves its register's value, as it was before the push, on top of the stack. -/
theorem State.completed_push_top (s : State) {r : Byte} (h : namedReg r ≠ 6) :
    (s.completed (.push r)).memRead ((s.completed (.push r)).getReg 6) = s.getReg (namedReg r) := by
  rw [completed_push_memRead, completed_push_sp, if_pos rfl, if_neg h]

theorem State.completed_pop_sp (s : State) {r : Byte} (h : namedReg r ≠ 6) :
    (s.completed (.pop r)).getReg 6 = s.getReg 6 + 1 := by
  rw [completed, sp_setReg_loadTop, if_neg h]
  exact getReg_setReg_self _ spIndex _

theorem State.completed_pop_getReg (s : State) {r : Byte} (h : namedReg r ≠ 6) :
    (s.completed (.pop r)).getReg (namedReg r) = s.memRead (s.getReg 6) :=
  (getReg_setReg_ne _ _ h).trans (s.getReg_setReg_self _ _)

theorem State.completed_ret_pc (s : State) :
    (s.completed .ret).pc = s.memRead (s.getReg 6) := rfl

theorem State.completed_ret_sp (s : State) : (s.completed .ret).getReg 6 = s.getReg 6 + 1 :=
  getReg_setReg_self _ spIndex _

/-- A PUSH that raised nothing found SP above 0, so the SP that it leaves is below 0xFF. -/
theorem raises_ret_of_push {s : State} {r : Byte} (h : raises s (.push r) = none) :
    raises (s.completed (.push r)) .ret = none := by
  obtain ⟨-, hrest⟩ := passed_cons.mp (raises_none.mp h)
  obtain ⟨-, hrest⟩ := passed_cons.mp hrest
  obtain ⟨hsp, -⟩ := passed_cons.mp hrest
  refine raises_none.mpr (passed_cons.mpr ⟨?_, .inr rfl⟩)
  rw [State.completed_rangePolicy, State.completed_push_sp]
  refine hsp.imp_right fun hsp => beq_false_of_ne ?_
  have hne : s.getReg 6 ≠ 0x00 := by simpa using hsp
  bv_omega

/-! ### The obligations -/

/-- Settles O23: the row of PUSH decides which clause applies, in its order of checks. -/
theorem pushEffect : Obligations.PushEffect := by
  unfold Obligations.PushEffect
  refine fun s r => ⟨rfl, fun h => ?_, fun hp => exec_faults_of_stackCause (raises_push hp r)⟩
  rw [exec_of_raises_none (raises_none_of_stackCause (raises_push · r) h), s.completed_push_eq]

/-- Settles O24: the row of POP decides which clause applies, in its order of checks; its check of SP
is on the SP that the load leaves. -/
theorem popEffect : Obligations.PopEffect := by
  unfold Obligations.PopEffect
  refine fun s r => ⟨rfl, fun h => ?_, fun hp => exec_faults_of_stackCause (raises_pop hp r)⟩
  rw [exec_of_raises_none (raises_none_of_stackCause (raises_pop · r) h), s.completed_pop_eq]

/-- Settles O48: POP reads the top of the stack that PUSH left, and its increment of SP undoes the
decrement. -/
theorem pushPopRestores : Obligations.PushPopRestores := by
  unfold Obligations.PushPopRestores
  intro s r q hr hq hpush
  refine ⟨_, exec_of_raises_none hpush, fun hpop => ⟨_, exec_of_raises_none hpop, ?_, ?_⟩⟩
  · rw [State.completed_pop_getReg _ hq, s.completed_push_top hr]
  · rw [State.completed_pop_sp _ hq, State.completed_push_sp, BitVec.sub_add_cancel]

/-- Settles O50: RET reads the top of the stack that PUSH left, and cannot raise there. -/
theorem pushRetJumps : Obligations.PushRetJumps := by
  unfold Obligations.PushRetJumps
  intro s r hr hpush
  refine ⟨_, exec_of_raises_none hpush, _, exec_of_raises_none (raises_ret_of_push hpush),
    ?_, ?_, ?_⟩
  · rw [State.completed_ret_pc, s.completed_push_top hr]
  · rw [State.completed_ret_sp, State.completed_push_sp, BitVec.sub_add_cancel]
  · rw [State.completed_fault, State.completed_fault]

end Sys2Proof.Machine

/-!
The subroutine: CALL and RET, alone and after each other. Under `fault` the row of CALL becomes a chain
of cases over numbers; what each of them does is read off `State.completed`, with SP spelled as
register 6. A CALL that raised nothing leaves an SP from which RET cannot raise.
-/

namespace Sys2Proof.Machine

/-! ### The rows of R113's table -/

/-- The return address is checked before SP (R100, D7), so this is not the row of PUSH. -/
theorem raises_call {s : State} (h : s.rangePolicy = .fault) (r : Byte) :
    raises s (.call r) =
      if s.pc.toNat = 0xFF then some above
      else if 8 ≤ r.toNat then some (badReg r)
      else if s.pc.toNat = 0xFE then some above
      else if s.getReg 6 = 0x00 then some below
      else none := by
  rw [raises_of_fault h, rangeConditions, firstOf_beq, firstOf_badReg, firstOf_beq]
  simp only [firstOf, beq_iff_eq]
  rfl

theorem raises_call_none {s : State} {r : Byte}
    (h : s.rangePolicy = .wrap ∨ s.pc.toNat ≤ 0xFD ∧ r.toNat ≤ 7 ∧ s.getReg 6 ≠ 0x00) :
    raises s (.call r) = none := by
  cases hp : s.rangePolicy with
  | wrap => exact raises_of_wrap hp _
  | fault =>
    obtain ⟨hpc, hr, hsp⟩ := h.resolve_left (by simp [hp])
    rw [raises_call hp, if_neg (by omega), if_neg (by omega), if_neg (by omega), if_neg hsp]

theorem raises_ret_none {s : State} (h : s.rangePolicy = .wrap ∨ s.getReg 6 ≠ 0xFF) :
    raises s .ret = none :=
  raises_none.mpr (passed_cons.mpr ⟨h.imp_right beq_false_of_ne, .inr rfl⟩)

theorem raises_ret_above {s : State} (hp : s.rangePolicy = .fault) (hsp : s.getReg 6 = 0xFF) :
    raises s .ret = some above := by
  rw [raises_of_fault hp, rangeConditions, hsp]
  rfl

/-- A CALL that raised nothing under `fault` found SP above 0. -/
theorem sp_ne_zero_of_call {s : State} {r : Byte} (hp : s.rangePolicy = .fault)
    (h : raises s (.call r) = none) : s.getReg 6 ≠ 0x00 := by
  intro hsp
  rw [raises_call hp, if_pos hsp] at h
  split_ifs at h

/-! ### What CALL leaves -/

/-- The target is the register's value as the decrement of SP left it (R100, D6). -/
theorem State.completed_call_eq (s : State) (r : Byte) :
    s.completed (.call r) =
      { s with
        regs := s.regs.set 6 (s.getReg 6 - 1)
        mem := s.mem.setCell (s.getReg 6 - 1).toNat (s.pc + 2)
        pc := if namedReg r = 6 then s.getReg 6 - 1 else s.getReg (namedReg r) } := by
  rw [completed, storeTop_eq, sp, sp, getReg_setReg_self, getReg_memWrite, getReg_setReg]
  rfl

theorem State.completed_call_sp (s : State) (r : Byte) :
    (s.completed (.call r)).getReg 6 = s.getReg 6 - 1 := s.getReg_setReg_self spIndex _

/-- CALL leaves its return address on top of the stack. -/
theorem State.completed_call_top (s : State) (r : Byte) :
    (s.completed (.call r)).memRead ((s.completed (.call r)).getReg 6) = s.pc + 2 := by
  rw [completed_call_memRead, completed_call_sp, if_pos rfl]

/-! ### The obligations -/

/-- Settles O25: the row of CALL decides which clause applies, in its order of checks. -/
theorem callEffect : Obligations.CallEffect := by
  unfold Obligations.CallEffect
  refine fun s r => ⟨rfl, fun h => ?_, fun hp =>
    ⟨fun hpc => exec_of_raises_some (c := above) ?_,
      fun hpc hr => exec_of_raises_some (c := badReg r) ?_,
      fun hpc hr => exec_of_raises_some (c := above) ?_,
      fun hpc hr hsp => exec_of_raises_some (c := below) ?_⟩⟩
  · rw [exec_of_raises_none (raises_call_none h), s.completed_call_eq]
  · rw [raises_call hp, if_pos hpc]
  · rw [raises_call hp, if_neg (by omega), if_pos hr]
  · rw [raises_call hp, if_neg (by omega), if_neg (by omega), if_pos hpc]
  · rw [raises_call hp, if_neg (by omega), if_neg (by omega), if_neg (by omega), if_pos hsp]

/-- Settles O26: the one check of RET's row decides between its effect and the latch. -/
theorem retEffect : Obligations.RetEffect := by
  unfold Obligations.RetEffect
  exact fun _ => ⟨rfl, fun h => exec_of_raises_none (raises_ret_none h),
    fun hp hsp => exec_of_raises_some (raises_ret_above hp hsp)⟩

/-- Settles O49: RET reads the return address that CALL left on top of the stack, and its increment of
SP undoes the decrement, which after a CALL under `fault` started above 0. -/
theorem callRetReturns : Obligations.CallRetReturns := by
  unfold Obligations.CallRetReturns
  intro s r hcall
  refine ⟨_, exec_of_raises_none hcall, fun u hsp htop => ⟨_, exec_eq .ret u, fun hret => ?_,
    fun hp => raises_ret_none (.inr ?_)⟩⟩
  · rw [State.nextState_of_none hret]
    constructor
    · rw [State.completed_ret_pc, hsp, htop, s.completed_call_top]
    · rw [State.completed_ret_sp, hsp, s.completed_call_sp, BitVec.sub_add_cancel]
  · have hne := sp_ne_zero_of_call hp hcall
    rw [hsp, s.completed_call_sp]
    bv_omega

end Sys2Proof.Machine

/-!
Fatal faults: R113's table decides whether an instruction faults or completes, and the status view
shows what is latched. In a state of the invariant the latch holds only a legal cause.
-/

namespace Sys2Proof.Machine

/-! ### The cause code of the status view -/

theorem State.causeCode_of_none {s : State} (h : s.fault = none) : s.causeCode = 0 := by
  rw [causeCode, h]

theorem State.causeCode_of_registerIndex {s : State} {v : Int}
    (h : s.fault = some (.rangeFault .registerIndex v)) : s.causeCode = 1 := by
  rw [causeCode, h]

theorem State.causeCode_of_address {s : State} {v : Int}
    (h : s.fault = some (.rangeFault .address v)) : s.causeCode = 2 := by
  rw [causeCode, h]

theorem State.causeCode_of_unsupportedAluOp {s : State}
    (h : s.fault = some .unsupportedAluOp) : s.causeCode = 3 := by
  rw [causeCode, h]

/-- Code 3 stands for the one cause that the invariant excludes (R114). -/
theorem State.Inv.causeCode_le {s : State} (hs : s.Inv) : s.causeCode ≤ 2 := by
  match hf : s.fault with
  | none => simp [State.causeCode_of_none hf]
  | some (.rangeFault .registerIndex _) => simp [State.causeCode_of_registerIndex hf]
  | some (.rangeFault .address _) => simp [State.causeCode_of_address hf]
  | some .unsupportedAluOp => exact (hs.latch _ hf).1.elim

/-! ### The obligations -/

/-- Settles O28: an instruction that raises answers the state with the cause latched. -/
theorem rangeFaultIsPrecise : Obligations.RangeFaultIsPrecise := by
  unfold Obligations.RangeFaultIsPrecise
  exact fun _ _ _ => exec_of_raises_some

/-- Settles O29: without a raised fault the next state is `State.completed`, whose control fields are
those of `s` but for HLT's `running`. -/
theorem noConditionNoFault : Obligations.NoConditionNoFault := by
  unfold Obligations.NoConditionNoFault
  exact fun s i hn =>
    ⟨_, exec_of_raises_none hn, s.completed_fault i, s.completed_running i⟩

/-- Settles O45: the code of each cause, and `State.Inv.causeCode_le` for the bound. -/
theorem causeCodes : Obligations.CauseCodes := by
  unfold Obligations.CauseCodes
  exact ⟨fun _ => ⟨State.causeCode_of_none, fun _ => State.causeCode_of_registerIndex,
    fun _ => State.causeCode_of_address, State.causeCode_of_unsupportedAluOp⟩,
    fun _ => State.Inv.causeCode_le⟩

end Sys2Proof.Machine

/-!
The outside of the machine: the memory that the loader leaves, the end of a run, and the two event
channels. The end of a run and the log are read off `exec_cases`; a channel is a filter of the log,
so each event kind needs only what its emission adds to the two filters.
-/

namespace Sys2Proof.Machine

/-! ### The loaded memory -/

theorem Memory.cell_of_forall_key_ne {m : Memory} {a : Nat} (h : ∀ c ∈ m, c.1 ≠ a) :
    m.cell a = memReset := by
  induction m with
  | nil => rfl
  | cons c m ih =>
    obtain ⟨hc, hm⟩ := List.forall_mem_cons.mp h
    rw [Memory.cell, if_neg hc, ih hm]

/-- R133: an image placed from address `a` reads as its byte `n` at address `a + n`, and as the reset
content beyond its end. -/
theorem Memory.cell_ofBytes (image : List Byte) (a n : Nat) :
    (Memory.ofBytes a image).cell (a + n) = image[n]?.getD memReset := by
  induction image generalizing a n with
  | nil => rfl
  | cons v vs ih =>
    rw [Memory.ofBytes]
    cases n with
    | zero =>
      have hrest : (Memory.ofBytes (a + 1) vs).cell a = memReset :=
        Memory.cell_of_forall_key_ne fun c hc =>
          (Nat.lt_of_succ_le (Memory.key_ge_of_mem_ofBytes hc).1).ne'
      split
      · next hv => exact hrest.trans hv.symm
      · exact if_pos rfl
    | succ n =>
      have hrest : (Memory.ofBytes (a + 1) vs).cell (a + (n + 1)) = vs[n]?.getD memReset := by
        rw [← ih (a + 1) n, Nat.add_right_comm, Nat.add_assoc]
      split
      · exact hrest
      · rw [Memory.cell, if_neg (by omega), hrest, List.getElem?_cons_succ]

theorem State.load_of_length_le (s : State) {image : List Byte} (h : image.length ≤ 256) :
    s.load image = .ok { s with mem := Memory.ofBytes 0 image } := if_pos h

theorem State.load_of_length_gt (s : State) {image : List Byte} (h : 256 < image.length) :
    s.load image = .error .imageTooLong := if_neg (Nat.not_le_of_lt h)

/-! ### The event channels -/

@[simp] theorem State.emit_out_outputs (s : State) (v : Byte) :
    (s.emit (.out v)).outputs = s.outputs ++ [v] := List.filterMap_append

@[simp] theorem State.emit_out_reports (s : State) (v : Byte) :
    (s.emit (.out v)).reports = s.reports :=
  List.filterMap_append.trans (List.append_nil _)

@[simp] theorem State.emit_unknownOpcode_outputs (s : State) (a op : Byte) :
    (s.emit (.unknownOpcode a op)).outputs = s.outputs :=
  List.filterMap_append.trans (List.append_nil _)

@[simp] theorem State.emit_unknownOpcode_reports (s : State) (a op : Byte) :
    (s.emit (.unknownOpcode a op)).reports = s.reports ++ [(a, op)] := List.filterMap_append

@[simp] theorem State.setPc_outputs (s : State) (t : Byte) : (s.setPc t).outputs = s.outputs := rfl

@[simp] theorem State.setPc_reports (s : State) (t : Byte) : (s.setPc t).reports = s.reports := rfl

/-! ### The obligations -/

/-- Settles O14: the loader places the image from address 0, so the cell at `a` is byte `a` of it. -/
theorem loadPlacesImage : Obligations.LoadPlacesImage := by
  unfold Obligations.LoadPlacesImage
  refine fun s image => ⟨fun h => ⟨_, s.load_of_length_le h, fun a => ?_, rfl⟩,
    s.load_of_length_gt⟩
  have hcell := Memory.cell_ofBytes image 0 a.toNat
  rwa [Nat.zero_add] at hcell

/-- Settles O35: an instruction that completes appends `State.emitted`, and one that faults keeps
the log. -/
theorem eventFrame : Obligations.EventFrame := by
  unfold Obligations.EventFrame
  intro s t i ht
  rcases exec_cases ht with ⟨hn, rfl⟩ | ⟨c, hc, rfl⟩
  · rw [s.completed_events, hn]
    cases i <;> rfl
  · rw [State.raise_events, hc]
    cases i <;> exact (List.append_nil _).symm

/-- Settles O43: a step that ends the run without HLT latches a fault, and HLT, which raises nothing,
keeps the latch, empty by the invariant. -/
theorem successfulEndIsHlt : Obligations.SuccessfulEndIsHlt := by
  unfold Obligations.SuccessfulEndIsHlt
  intro s t hinv hs ht hover
  constructor
  · rintro ⟨-, hnone⟩
    rcases terminationPaths s t hs ht hover with hhlt | ⟨c, -, hc⟩
    · exact hhlt
    · cases hnone.symm.trans hc
  · intro hhlt
    rw [step_of_running hs, hhlt] at ht
    rcases exec_cases ht with ⟨-, rfl⟩ | ⟨c, hc, -⟩
    · exact ⟨hover, (s.completed_fault .hlt).trans (hinv.status hs)⟩
    · cases (raises_hlt s).symm.trans hc

/-- Settles O46: each effect emits one event and then moves `pc`, which neither channel shows. -/
theorem separateChannels : Obligations.SeparateChannels := by
  unfold Obligations.SeparateChannels
  refine fun s => ⟨fun r hn => ⟨_, exec_of_raises_none hn, ?_, ?_⟩,
    fun op hn => ⟨_, exec_of_raises_none hn, ?_, ?_⟩⟩
  · rw [State.completed, State.setPc_outputs, State.emit_out_outputs]
  · rw [State.completed, State.setPc_reports, State.emit_out_reports]
  · rw [State.completed, State.setPc_outputs, State.emit_unknownOpcode_outputs]
  · rw [State.completed, State.setPc_reports, State.emit_unknownOpcode_reports]

end Sys2Proof.Machine
